-- ==== Sys2Proof/Word.lean ====
section
/-! DEFINITION. The widths of the block's values (00_scope R5, R6) and the two truncations of R7.
Every value is unsigned; no instruction has a signed reading (R7). -/

namespace Sys2Proof

/-- A general register, a memory byte, a timer or an immediate `NN`: 8 bits (R5, R71). -/
abbrev Byte := BitVec 8

/-- `I`, `pc`, a stack entry or an instruction word: 16 bits (R5, R70). -/
abbrev Word := BitVec 16

/-- The immediate `NNN` (R71). -/
abbrev Addr := BitVec 12

/-- The family `F`, the immediate `N` and the other 4-bit fields of a word (R71). -/
abbrev Nibble := BitVec 4

/-- A register number, 0 to 15 (10_state R20). -/
abbrev Reg := Fin 16

/-- `trunc_8` of R7. -/
def trunc8 (n : Nat) : Byte := BitVec.ofNat 8 n

/-- `trunc_16` of R7. -/
def trunc16 (n : Nat) : Word := BitVec.ofNat 16 n

end Sys2Proof
end

