-- ==== Sys2Proof/Syntax.lean ====
section
/-! DEFINITION. The 34 instructions of spec/opcode_table.json (30_encoding R86), one constructor a row, in the
table's order. An operand's type has exactly the width of its field (R71, R73), so every term is an instruction. -/

namespace Sys2Proof

/-- The instruction set (R86). `x` and `y` are register numbers, `nn`, `n` and `nnn` the immediates of R71. -/
inductive Instr where
  /-- 00E0, `CLS` (R170). -/
  | cls
  /-- 00EE, `RET` (R100). -/
  | ret
  /-- 1NNN, `JP nnn` (R101). -/
  | jp (nnn : Addr)
  /-- 2NNN, `CALL nnn` (R102). -/
  | call (nnn : Addr)
  /-- 3XNN, `SE Vx, nn` (R103). -/
  | seImm (x : Reg) (nn : Byte)
  /-- 4XNN, `SNE Vx, nn` (R104). -/
  | sneImm (x : Reg) (nn : Byte)
  /-- 5XY0, `SE Vx, Vy` (R105). -/
  | seReg (x y : Reg)
  /-- 6XNN, `LD Vx, nn` (R120). -/
  | ldImm (x : Reg) (nn : Byte)
  /-- 7XNN, `ADD Vx, nn` (R121). -/
  | addImm (x : Reg) (nn : Byte)
  /-- 8XY0, `LD Vx, Vy` (R122). -/
  | ldReg (x y : Reg)
  /-- 8XY1, `OR Vx, Vy` (R123). -/
  | orReg (x y : Reg)
  /-- 8XY2, `AND Vx, Vy` (R124). -/
  | andReg (x y : Reg)
  /-- 8XY3, `XOR Vx, Vy` (R125). -/
  | xorReg (x y : Reg)
  /-- 8XY4, `ADD Vx, Vy` (R126). -/
  | addReg (x y : Reg)
  /-- 8XY5, `SUB Vx, Vy` (R127). -/
  | subReg (x y : Reg)
  /-- 8XY6, `SHR Vx, Vy` (R128). -/
  | shr (x y : Reg)
  /-- 8XY7, `SUBN Vx, Vy` (R129). -/
  | subnReg (x y : Reg)
  /-- 8XYE, `SHL Vx, Vy` (R130). -/
  | shl (x y : Reg)
  /-- 9XY0, `SNE Vx, Vy` (R106). -/
  | sneReg (x y : Reg)
  /-- ANNN, `LD I, nnn` (R150). -/
  | ldI (nnn : Addr)
  /-- BNNN, `JP V0, nnn` (R107). -/
  | jpV0 (nnn : Addr)
  /-- CXNN, `RND Vx, nn` (R131). -/
  | rnd (x : Reg) (nn : Byte)
  /-- DXYN, `DRW Vx, Vy, n` (R171). -/
  | drw (x y : Reg) (n : Nibble)
  /-- EX9E, `SKP Vx` (R190). -/
  | skp (x : Reg)
  /-- EXA1, `SKNP Vx` (R191). -/
  | sknp (x : Reg)
  /-- FX07, `LD Vx, DT` (R192). -/
  | ldVxDT (x : Reg)
  /-- FX0A, `LD Vx, K` (R193). -/
  | ldVxK (x : Reg)
  /-- FX15, `LD DT, Vx` (R194). -/
  | ldDTVx (x : Reg)
  /-- FX18, `LD ST, Vx` (R195). -/
  | ldSTVx (x : Reg)
  /-- FX1E, `ADD I, Vx` (R151). -/
  | addI (x : Reg)
  /-- FX29, `LD F, Vx` (R152). -/
  | ldF (x : Reg)
  /-- FX33, `LD B, Vx` (R153). -/
  | ldB (x : Reg)
  /-- FX55, `LD [I], Vx` (R154). -/
  | ldMemVx (x : Reg)
  /-- FX65, `LD Vx, [I]` (R155). -/
  | ldVxMem (x : Reg)
  deriving DecidableEq, Repr

end Sys2Proof
end

