-- ==== Sys2Proof/WellFormed.lean ====
section
/-! DEFINITION. Which 16-bit words are well-formed instruction words: the opcode map of spec/opcode_table.json as
a list of mask and match pairs (30_encoding R82). An `Instr` needs no check of its own: each operand's type has
exactly the width of its field. The check is on words, and an illegal word (R91) is what it refuses. -/

namespace Sys2Proof

/-- One row of spec/opcode_table.json: a word is the row's instruction when `(w &&& mask) = pattern` (R82). -/
structure OpcodeRow where
  mnemonic : String
  mask : Word
  pattern : Word
  deriving DecidableEq, Repr

/-- Whether the word `w` is one of the row's words (R82). -/
def OpcodeRow.accepts (r : OpcodeRow) (w : Word) : Bool := (w &&& r.mask) == r.pattern

/-- The rows of families 0 to 7 (R84, R85, R87). -/
def rowsLow : List OpcodeRow :=
  [⟨"CLS", 0xFFFF, 0x00E0⟩,
   ⟨"RET", 0xFFFF, 0x00EE⟩,
   ⟨"JP_nnn", 0xF000, 0x1000⟩,
   ⟨"CALL_nnn", 0xF000, 0x2000⟩,
   ⟨"SE_Vx__nn", 0xF000, 0x3000⟩,
   ⟨"SNE_Vx__nn", 0xF000, 0x4000⟩,
   ⟨"SE_Vx__Vy", 0xF00F, 0x5000⟩,
   ⟨"LD_Vx__nn", 0xF000, 0x6000⟩,
   ⟨"ADD_Vx__nn", 0xF000, 0x7000⟩]

/-- The rows of families 8 (R88) and 9 (R87). -/
def rowsAlu : List OpcodeRow :=
  [⟨"LD_Vx__Vy", 0xF00F, 0x8000⟩,
   ⟨"OR_Vx__Vy", 0xF00F, 0x8001⟩,
   ⟨"AND_Vx__Vy", 0xF00F, 0x8002⟩,
   ⟨"XOR_Vx__Vy", 0xF00F, 0x8003⟩,
   ⟨"ADD_Vx__Vy", 0xF00F, 0x8004⟩,
   ⟨"SUB_Vx__Vy", 0xF00F, 0x8005⟩,
   ⟨"SHR_Vx__Vy", 0xF00F, 0x8006⟩,
   ⟨"SUBN_Vx__Vy", 0xF00F, 0x8007⟩,
   ⟨"SHL_Vx__Vy", 0xF00F, 0x800E⟩,
   ⟨"SNE_Vx__Vy", 0xF00F, 0x9000⟩]

/-- The rows of families A to D (R84). -/
def rowsMid : List OpcodeRow :=
  [⟨"LD_I__nnn", 0xF000, 0xA000⟩,
   ⟨"JP_V0__nnn", 0xF000, 0xB000⟩,
   ⟨"RND_Vx__nn", 0xF000, 0xC000⟩,
   ⟨"DRW_Vx__Vy__n", 0xF000, 0xD000⟩]

/-- The rows of families E (R89) and F (R90). -/
def rowsHigh : List OpcodeRow :=
  [⟨"SKP_Vx", 0xF0FF, 0xE09E⟩,
   ⟨"SKNP_Vx", 0xF0FF, 0xE0A1⟩,
   ⟨"LD_Vx__DT", 0xF0FF, 0xF007⟩,
   ⟨"LD_Vx__K", 0xF0FF, 0xF00A⟩,
   ⟨"LD_DT__Vx", 0xF0FF, 0xF015⟩,
   ⟨"LD_ST__Vx", 0xF0FF, 0xF018⟩,
   ⟨"ADD_I__Vx", 0xF0FF, 0xF01E⟩,
   ⟨"LD_F__Vx", 0xF0FF, 0xF029⟩,
   ⟨"LD_B__Vx", 0xF0FF, 0xF033⟩,
   ⟨"LD__I___Vx", 0xF0FF, 0xF055⟩,
   ⟨"LD_Vx___I", 0xF0FF, 0xF065⟩]

/-- The opcode map: 34 rows (R86, 90_conflicts C1). -/
def opcodeTable : List OpcodeRow := rowsLow ++ rowsAlu ++ rowsMid ++ rowsHigh

/-- A word is legal when some row of the opcode map accepts it (R91). -/
def legalWord (w : Word) : Bool := opcodeTable.any (fun r => r.accepts w)

/-- The mnemonic of spec/opcode_table.json of an instruction's row. -/
def Instr.mnemonic : Instr → String
  | .cls => "CLS"
  | .ret => "RET"
  | .jp _ => "JP_nnn"
  | .call _ => "CALL_nnn"
  | .seImm _ _ => "SE_Vx__nn"
  | .sneImm _ _ => "SNE_Vx__nn"
  | .seReg _ _ => "SE_Vx__Vy"
  | .ldImm _ _ => "LD_Vx__nn"
  | .addImm _ _ => "ADD_Vx__nn"
  | .ldReg _ _ => "LD_Vx__Vy"
  | .orReg _ _ => "OR_Vx__Vy"
  | .andReg _ _ => "AND_Vx__Vy"
  | .xorReg _ _ => "XOR_Vx__Vy"
  | .addReg _ _ => "ADD_Vx__Vy"
  | .subReg _ _ => "SUB_Vx__Vy"
  | .shr _ _ => "SHR_Vx__Vy"
  | .subnReg _ _ => "SUBN_Vx__Vy"
  | .shl _ _ => "SHL_Vx__Vy"
  | .sneReg _ _ => "SNE_Vx__Vy"
  | .ldI _ => "LD_I__nnn"
  | .jpV0 _ => "JP_V0__nnn"
  | .rnd _ _ => "RND_Vx__nn"
  | .drw _ _ _ => "DRW_Vx__Vy__n"
  | .skp _ => "SKP_Vx"
  | .sknp _ => "SKNP_Vx"
  | .ldVxDT _ => "LD_Vx__DT"
  | .ldVxK _ => "LD_Vx__K"
  | .ldDTVx _ => "LD_DT__Vx"
  | .ldSTVx _ => "LD_ST__Vx"
  | .addI _ => "ADD_I__Vx"
  | .ldF _ => "LD_F__Vx"
  | .ldB _ => "LD_B__Vx"
  | .ldMemVx _ => "LD__I___Vx"
  | .ldVxMem _ => "LD_Vx___I"

end Sys2Proof
end

