-- ==== Sys2Proof/Decode.lean ====
section
/-! DEFINITION. The field extractions (30_encoding R71), the decoder, total on all 65536 words (R82, R84 to R91),
and the encoder, written from the formats of R72 and the opcode map. -/

namespace Sys2Proof

/-! ### Fields (R71) -/

/-- `F`, bits 15 to 12: the family. -/
def family (w : Word) : Nibble := w.extractLsb' 12 4

/-- `X`, bits 11 to 8: a register number. -/
def fieldX (w : Word) : Reg := (w.extractLsb' 8 4).toFin

/-- `Y`, bits 7 to 4: a register number. -/
def fieldY (w : Word) : Reg := (w.extractLsb' 4 4).toFin

/-- `N`, bits 3 to 0. -/
def fieldN (w : Word) : Nibble := w.extractLsb' 0 4

/-- `NN`, bits 7 to 0. -/
def fieldNN (w : Word) : Byte := w.extractLsb' 0 8

/-- `NNN`, bits 11 to 0. -/
def fieldNNN (w : Word) : Addr := w.extractLsb' 0 12

/-- The word of the byte at the lower address and the byte after it: big-endian, high byte first (20_memory R53). -/
def wordOfBytes (hi lo : Byte) : Word := hi ++ lo

/-- The byte of a word that stands at the lower address (R53). -/
def hiByte (w : Word) : Byte := w.extractLsb' 8 8

/-- The byte of a word that stands at the higher address (R53). -/
def loByte (w : Word) : Byte := w.extractLsb' 0 8

/-! ### Decoder -/

/-- Why a word is no instruction: DECODE_ERROR with the word and its family (R82, 60_exceptions R210). -/
inductive DecodeError where
  | decodeError (word : Word) (family : Nibble)
  deriving DecidableEq, Repr

/-- Reject the word by name (R82, R91). -/
def illegal (w : Word) : Except DecodeError Instr := .error (.decodeError w (family w))

/-- Family 0 recognises exactly two words (R85). -/
def decodeFamily0 (w : Word) : Except DecodeError Instr :=
  if w = 0x00E0 then .ok .cls else if w = 0x00EE then .ok .ret else illegal w

/-- Families 5 and 9 need bits 3 to 0 to be 0 (R87). -/
def decodeZeroNibble (i : Instr) (w : Word) : Except DecodeError Instr :=
  if fieldN w = 0 then .ok i else illegal w

/-- Family 8 selects by bits 3 to 0 (R88). -/
def decodeFamily8 (w : Word) : Except DecodeError Instr :=
  match fieldN w with
  | 0x0#4 => .ok (.ldReg (fieldX w) (fieldY w))
  | 0x1#4 => .ok (.orReg (fieldX w) (fieldY w))
  | 0x2#4 => .ok (.andReg (fieldX w) (fieldY w))
  | 0x3#4 => .ok (.xorReg (fieldX w) (fieldY w))
  | 0x4#4 => .ok (.addReg (fieldX w) (fieldY w))
  | 0x5#4 => .ok (.subReg (fieldX w) (fieldY w))
  | 0x6#4 => .ok (.shr (fieldX w) (fieldY w))
  | 0x7#4 => .ok (.subnReg (fieldX w) (fieldY w))
  | 0xE#4 => .ok (.shl (fieldX w) (fieldY w))
  | _ => illegal w

/-- Family E selects by bits 7 to 0 (R89). -/
def decodeFamilyE (w : Word) : Except DecodeError Instr :=
  match fieldNN w with
  | 0x9E#8 => .ok (.skp (fieldX w))
  | 0xA1#8 => .ok (.sknp (fieldX w))
  | _ => illegal w

/-- Family F selects by bits 7 to 0 (R90). -/
def decodeFamilyF (w : Word) : Except DecodeError Instr :=
  match fieldNN w with
  | 0x07#8 => .ok (.ldVxDT (fieldX w))
  | 0x0A#8 => .ok (.ldVxK (fieldX w))
  | 0x15#8 => .ok (.ldDTVx (fieldX w))
  | 0x18#8 => .ok (.ldSTVx (fieldX w))
  | 0x1E#8 => .ok (.addI (fieldX w))
  | 0x29#8 => .ok (.ldF (fieldX w))
  | 0x33#8 => .ok (.ldB (fieldX w))
  | 0x55#8 => .ok (.ldMemVx (fieldX w))
  | 0x65#8 => .ok (.ldVxMem (fieldX w))
  | _ => illegal w

/-- The decoder: the top nibble selects the family (R82, R84). -/
def decode (w : Word) : Except DecodeError Instr :=
  match family w with
  | 0x0#4 => decodeFamily0 w
  | 0x1#4 => .ok (.jp (fieldNNN w))
  | 0x2#4 => .ok (.call (fieldNNN w))
  | 0x3#4 => .ok (.seImm (fieldX w) (fieldNN w))
  | 0x4#4 => .ok (.sneImm (fieldX w) (fieldNN w))
  | 0x5#4 => decodeZeroNibble (.seReg (fieldX w) (fieldY w)) w
  | 0x6#4 => .ok (.ldImm (fieldX w) (fieldNN w))
  | 0x7#4 => .ok (.addImm (fieldX w) (fieldNN w))
  | 0x8#4 => decodeFamily8 w
  | 0x9#4 => decodeZeroNibble (.sneReg (fieldX w) (fieldY w)) w
  | 0xA#4 => .ok (.ldI (fieldNNN w))
  | 0xB#4 => .ok (.jpV0 (fieldNNN w))
  | 0xC#4 => .ok (.rnd (fieldX w) (fieldNN w))
  | 0xD#4 => .ok (.drw (fieldX w) (fieldY w) (fieldN w))
  | 0xE#4 => decodeFamilyE w
  | 0xF#4 => decodeFamilyF w
  | _ => illegal w

/-- The decoder on the two bytes of a word as memory holds them (R81). -/
def decodeBytes (hi lo : Byte) : Except DecodeError Instr := decode (wordOfBytes hi lo)

/-- The instruction a row's word stands for, its bits numbered as spec/opcode_table.json numbers them: the word's
high byte is laid at the lower address (R53) and the two bytes are given to the decoder. -/
def decodeTableWord (nbits w : Nat) : Option Instr :=
  let word : Word := trunc16 (w % 2 ^ nbits)
  match decodeBytes (hiByte word) (loByte word) with
  | .ok i => some i
  | .error _ => none

/-! ### Encoder -/

/-- Format ADDR (R72). -/
def wordAddr (op : Nibble) (nnn : Addr) : Word := op ++ nnn

/-- Formats REGIMM and REGSUB (R72): a register number and a byte. -/
def wordRegByte (op : Nibble) (x : Reg) (nn : Byte) : Word := op ++ (BitVec.ofFin x : Nibble) ++ nn

/-- Formats REGREG and DRAW (R72): two register numbers and a nibble. -/
def wordRegReg (op : Nibble) (x y : Reg) (n : Nibble) : Word :=
  op ++ (BitVec.ofFin x : Nibble) ++ (BitVec.ofFin y : Nibble) ++ n

/-- The word of an instruction: the `match` bits of its row of spec/opcode_table.json with its operands in the
fields of its format (R72). -/
def encode : Instr → Word
  | .cls => 0x00E0
  | .ret => 0x00EE
  | .jp nnn => wordAddr 0x1 nnn
  | .call nnn => wordAddr 0x2 nnn
  | .seImm x nn => wordRegByte 0x3 x nn
  | .sneImm x nn => wordRegByte 0x4 x nn
  | .seReg x y => wordRegReg 0x5 x y 0x0
  | .ldImm x nn => wordRegByte 0x6 x nn
  | .addImm x nn => wordRegByte 0x7 x nn
  | .ldReg x y => wordRegReg 0x8 x y 0x0
  | .orReg x y => wordRegReg 0x8 x y 0x1
  | .andReg x y => wordRegReg 0x8 x y 0x2
  | .xorReg x y => wordRegReg 0x8 x y 0x3
  | .addReg x y => wordRegReg 0x8 x y 0x4
  | .subReg x y => wordRegReg 0x8 x y 0x5
  | .shr x y => wordRegReg 0x8 x y 0x6
  | .subnReg x y => wordRegReg 0x8 x y 0x7
  | .shl x y => wordRegReg 0x8 x y 0xE
  | .sneReg x y => wordRegReg 0x9 x y 0x0
  | .ldI nnn => wordAddr 0xA nnn
  | .jpV0 nnn => wordAddr 0xB nnn
  | .rnd x nn => wordRegByte 0xC x nn
  | .drw x y n => wordRegReg 0xD x y n
  | .skp x => wordRegByte 0xE x 0x9E
  | .sknp x => wordRegByte 0xE x 0xA1
  | .ldVxDT x => wordRegByte 0xF x 0x07
  | .ldVxK x => wordRegByte 0xF x 0x0A
  | .ldDTVx x => wordRegByte 0xF x 0x15
  | .ldSTVx x => wordRegByte 0xF x 0x18
  | .addI x => wordRegByte 0xF x 0x1E
  | .ldF x => wordRegByte 0xF x 0x29
  | .ldB x => wordRegByte 0xF x 0x33
  | .ldMemVx x => wordRegByte 0xF x 0x55
  | .ldVxMem x => wordRegByte 0xF x 0x65

/-- An instruction is well-formed when its word is legal (R82, R91). Every operand's type has exactly its field's
width, so no term fails this. -/
def Instr.wellFormed (i : Instr) : Bool := legalWord (encode i)

end Sys2Proof
end

