-- ==== Sys2Proof/Config.lean ====
section
/-! DEFINITION. What an implementation fixes: the parameters of 00_scope R5, the FONT bytes of 10_state R37,
and the one free value, the random byte of 00_scope R12. -/

namespace Sys2Proof.Config

/-- The highest legal address: `MEM_SIZE` is 4096 (R5, 20_memory R50). -/
abbrev memTop : Nat := 4095

/-- `PROG_BASE` (R5): the entry point and where `load` writes (20_memory R51). -/
abbrev progBase : Nat := 0x200

/-- `PROG_MAX` (R5): the longest program `load` accepts (70_reset R242). -/
abbrev progMax : Nat := 3584

/-- The FONT bytes of glyphs 0 to 7. PRESUMED (log 3): R37 gives these values as the parameter's default,
from general knowledge. -/
def fontLow : List Byte :=
  [0xF0, 0x90, 0x90, 0x90, 0xF0,
   0x20, 0x60, 0x20, 0x20, 0x70,
   0xF0, 0x10, 0xF0, 0x80, 0xF0,
   0xF0, 0x10, 0xF0, 0x10, 0xF0,
   0x90, 0x90, 0xF0, 0x10, 0x10,
   0xF0, 0x80, 0xF0, 0x10, 0xF0,
   0xF0, 0x80, 0xF0, 0x90, 0xF0,
   0xF0, 0x10, 0x20, 0x40, 0x40]

/-- The FONT bytes of glyphs 8 to F. PRESUMED (log 3), as `fontLow`. -/
def fontHigh : List Byte :=
  [0xF0, 0x90, 0xF0, 0x90, 0xF0,
   0xF0, 0x90, 0xF0, 0x10, 0xF0,
   0xF0, 0x90, 0xF0, 0x90, 0x90,
   0xE0, 0x90, 0xE0, 0x90, 0xE0,
   0xF0, 0x80, 0x80, 0x80, 0xF0,
   0xE0, 0x90, 0x90, 0x90, 0xE0,
   0xF0, 0x80, 0xF0, 0x80, 0xF0,
   0xF0, 0x80, 0xF0, 0x80, 0x80]

/-- FONT: glyph `d` is the 5 bytes at `5*d` (R37). -/
def font : List Byte := fontLow ++ fontHigh

/-- What an address that no write has listed reads as: the reset contents of memory (R39). The font stands at
0x000 to 0x04F; every other byte is 0, the spec's decision D16 (log 4). -/
def initByte (a : Nat) : Byte := font.getD a 0

/-- FREE VALUE (log 2): the byte the host's random source answers to the `n`-th request (R12, 41_alu R131).
It has no body, so nothing can be proved about its value: a statement that holds for it holds for every byte. -/
opaque randomByte : Nat → Byte

end Sys2Proof.Config
end

