-- ==== Sys2Proof/Machine/State.lean ====
section
/-! DEFINITION. The state of the block as plain data (10_state), the reasons a cycle faults or an event is turned
away (60_exceptions R210), and the state after reset (10_state R39). -/

namespace Sys2Proof.Machine

/-- The fault kinds, each with the `info` it records (60_exceptions R210). Raised by the fetch, the decoder, an
instruction's execute step or the loader; a raise is a next state whose `status` is halted (R213). -/
inductive FaultCause where
  /-- Code 1: a word outside the opcode map, with the word and its family. -/
  | decodeError (word : Word) (family : Nibble)
  /-- Code 2: a fetch with `pc` above 4094, with `pc`. -/
  | fetchBounds (pc : Word)
  /-- Code 3: DXYN or FX65 reading above 4095, with the exact address. -/
  | memReadBounds (addr : Nat)
  /-- Code 4: FX33 or FX55 writing above 4095, with the exact address. -/
  | memWriteBounds (addr : Nat)
  /-- Code 5: 2NNN with `sp` 16, with `sp`. -/
  | stackOverflow (sp : Nat)
  /-- Code 6: 00EE with `sp` 0, with `sp`. -/
  | stackUnderflow (sp : Nat)
  /-- Code 7: EX9E or EXA1 with `V[X]` above 15, with `V[X]`. -/
  | keyIndex (vx : Byte)
  /-- Code 8: the loader with a program longer than 3584 bytes, with the length. -/
  | loadCapacity (length : Nat)
  deriving DecidableEq, Repr

/-- A fault record (R212). Its `code` and `info` fields are `cause`, read by `FaultCause.code` and
`FaultCause.info`; `opcode` is absent where no word was fetched. -/
structure FaultRecord where
  pc : Word
  opcode : Option Word
  cause : FaultCause
  deriving DecidableEq, Repr

/-- The fault status (10_state R35): the `halted` bit and, exactly when it is set, the record. -/
inductive Status where
  | running
  | halted (record : FaultRecord)
  deriving DecidableEq, Repr

/-- Why a cycle answers `fault`. -/
inductive Fault where
  /-- Raised by `step` on a halted block: the cycle changes nothing and returns the recorded fault (R214).
  Safe: the run makes no further progress, as the spec says. -/
  | halted (record : FaultRecord)
  deriving DecidableEq, Repr

/-- Why an instruction or a host event is turned away. -/
inductive Refusal where
  /-- Raised by `exec` for an instruction with no meaning yet; no arm does so. Safe: nothing is claimed of it. -/
  | notModelled (mnemonic : String)
  /-- Raised by a `load` event after the first cycle, which breaks the host's duty R224 (e) (93 N11).
  Safe: the model does not accept such a schedule. -/
  | loadAfterFirstCycle
  deriving DecidableEq, Repr

/-- Memory: the bytes that differ from their reset contents, by rising address (20_memory R50). -/
structure Memory where
  cells : List Host.Cell
  deriving DecidableEq, Repr

/-- The 64 columns of 32 one-bit cells: `fb[x][y]` (10_state R31). -/
abbrev Framebuffer := Vector (Vector Bool 32) 64

/-- The state of the block (10_state). -/
structure State where
  /-- `V[0]` to `V[15]`; `V[15]` is VF (R20, R21). -/
  v : Vector Byte 16
  /-- The index register (R26). -/
  i : Word
  /-- The program counter (R23). -/
  pc : Word
  /-- The index of the next free stack slot, 0 to 16 (R27). -/
  sp : Fin 17
  /-- The return-address stack (R28). -/
  stack : Vector Word 16
  /-- The delay timer (R29). -/
  dt : Byte
  /-- The sound timer (R30). -/
  st : Byte
  /-- The framebuffer (R31). -/
  fb : Framebuffer
  /-- The key inputs as the host left them, true for pressed (R32, 00_scope R12; log 1). -/
  keys : Vector Bool 16
  /-- The redraw flag (R33). -/
  shouldRedraw : Bool
  /-- The latch of the word fetched last (R34). -/
  opcode : Word
  /-- The fault status (R35). -/
  status : Status
  /-- The 4096 bytes of memory (R36). -/
  mem : Memory
  /-- THE MODEL'S OWN: how many random bytes have been drawn, the index of the next one (log 2). -/
  draws : Nat
  deriving DecidableEq, Repr

/-- The block right after reset (R39, 70_reset R240, R241). Values the document does not state are the spec's
decision D16 (log 4); `draws` is the model's own (log 2). -/
def State.reset : State where
  v := Vector.replicate 16 0
  i := 0
  pc := 0x200
  sp := 0
  stack := Vector.replicate 16 0
  dt := 0
  st := 0
  fb := Vector.replicate 64 (Vector.replicate 32 false)
  keys := Vector.replicate 16 false
  shouldRedraw := false
  opcode := 0
  status := .running
  mem := ⟨[]⟩
  draws := 0

end Sys2Proof.Machine
end

