-- ==== Sys2Proof/Machine/Ops.lean ====
section
/-! DEFINITION. The named operations over registers and memory that the meanings share: one update per field of
State, the memory primitives of 00_scope R9, the stack primitives of R13, taking a fault (60_exceptions R213), the
fetch (30_encoding R81), PcUpdate (R83) and the timer tick (60_exceptions R220). -/

namespace Sys2Proof.Machine

/-- What a step, an instruction or an event answers. -/
abbrev Outcome := Host.Outcome State Fault Refusal

/-! ### Registers (00_scope R8) -/

/-- `V[x]`. -/
def State.getV (s : State) (x : Reg) : Byte := s.v[x]

/-- `V[x] <- b`. -/
def State.setV (s : State) (x : Reg) (b : Byte) : State := { s with v := s.v.set x b }

/-- All of V at once. -/
def State.setRegs (s : State) (v : Vector Byte 16) : State := { s with v := v }

/-- `I <- w`. -/
def State.setI (s : State) (w : Word) : State := { s with i := w }

/-- `pc <- w`. -/
def State.setPc (s : State) (w : Word) : State := { s with pc := w }

/-- The stack and its pointer together. -/
def State.setStack (s : State) (stack : Vector Word 16) (sp : Fin 17) : State := { s with stack := stack, sp := sp }

/-- `DT <- b`. -/
def State.setDT (s : State) (b : Byte) : State := { s with dt := b }

/-- `ST <- b`. -/
def State.setST (s : State) (b : Byte) : State := { s with st := b }

/-- The framebuffer. -/
def State.setFb (s : State) (fb : Framebuffer) : State := { s with fb := fb }

/-- The key inputs; only the host writes them (10_state R32). -/
def State.setKeys (s : State) (keys : Vector Bool 16) : State := { s with keys := keys }

/-- The redraw flag (10_state R33). -/
def State.setRedraw (s : State) (b : Bool) : State := { s with shouldRedraw := b }

/-- The opcode latch (10_state R34). -/
def State.setOpcode (s : State) (w : Word) : State := { s with opcode := w }

/-- The fault status (10_state R35). -/
def State.setStatus (s : State) (st : Status) : State := { s with status := st }

/-- Memory as a whole. -/
def State.setMem (s : State) (m : Memory) : State := { s with mem := m }

/-- The model's count of random draws (log 2). -/
def State.setDraws (s : State) (n : Nat) : State := { s with draws := n }

/-- `VF`, the flags register (10_state R21). -/
def vf : Reg := 15

/-! ### Memory (20_memory R50, R57) -/

/-- The listed byte at address `a`, if there is one. -/
def lookupCell (a : Nat) : List Host.Cell → Option Byte
  | [] => none
  | c :: cs => if c.1 = a then some c.2 else lookupCell a cs

/-- List byte `b` at address `a`, keeping the addresses rising. -/
def insertCell (a : Nat) (b : Byte) : List Host.Cell → List Host.Cell
  | [] => [(a, b)]
  | c :: cs => if a < c.1 then (a, b) :: c :: cs else if a = c.1 then (a, b) :: cs else c :: insertCell a b cs

/-- List nothing at address `a`. -/
def removeCell (a : Nat) : List Host.Cell → List Host.Cell
  | [] => []
  | c :: cs => if c.1 = a then removeCell a cs else c :: removeCell a cs

/-- `memory[a]`: what was last written there, or the reset contents (R57, 10_state R39). -/
def Memory.read (m : Memory) (a : Nat) : Byte := (lookupCell a m.cells).getD (Config.initByte a)

/-- `memory[a] <- b`. A byte equal to the reset contents is not listed. -/
def Memory.write (m : Memory) (a : Nat) (b : Byte) : Memory :=
  if b = Config.initByte a then ⟨removeCell a m.cells⟩ else ⟨insertCell a b m.cells⟩

/-- The canonical form: addresses strictly rising and inside 0 to 4095, no byte equal to the reset contents. -/
abbrev Memory.wf (m : Memory) : Prop :=
  m.cells.Pairwise (fun p q => p.1 < q.1) ∧ ∀ c ∈ m.cells, c.1 ≤ Config.memTop ∧ c.2 ≠ Config.initByte c.1

/-- `MemRead(a, 1)` (R9): the address is an exact integer, checked when the access is made (R54). -/
def memRead (m : Memory) (a : Nat) : Except FaultCause Byte :=
  if Config.memTop < a then .error (.memReadBounds a) else .ok (m.read a)

/-- `MemWrite(a, 1, b)` (R9, R54). -/
def memWrite (m : Memory) (a : Nat) (b : Byte) : Except FaultCause Memory :=
  if Config.memTop < a then .error (.memWriteBounds a) else .ok (m.write a b)

/-- `n` reads from `a` upwards; the first address out of range is the one reported (R54, R55). -/
def readBytes (m : Memory) (a : Nat) : Nat → Except FaultCause (List Byte)
  | 0 => .ok []
  | n + 1 =>
    match memRead m a with
    | .error c => .error c
    | .ok b =>
      match readBytes m (a + 1) n with
      | .error c => .error c
      | .ok bs => .ok (b :: bs)

/-- Writes of the listed bytes from `a` upwards; the first address out of range is the one reported (R54, R55). -/
def writeBytes (m : Memory) (a : Nat) : List Byte → Except FaultCause Memory
  | [] => .ok m
  | b :: bs =>
    match memWrite m a b with
    | .error c => .error c
    | .ok m' => writeBytes m' (a + 1) bs

/-- `V[j]`, `V[j+1]`, … take the listed bytes, in ascending order (42_index_memory R155). -/
def loadRegs (v : Vector Byte 16) (j : Nat) : List Byte → Vector Byte 16
  | [] => v
  | b :: bs => loadRegs (v.setIfInBounds j b) (j + 1) bs

/-! ### Call stack (00_scope R13) -/

/-- `Push(w)`. -/
def push (w : Word) (s : State) : Except FaultCause State :=
  if h : s.sp.val < 16 then
    .ok (s.setStack (s.stack.set s.sp.val w h) ⟨s.sp.val + 1, Nat.succ_lt_succ h⟩)
  else .error (.stackOverflow s.sp.val)

/-- `Pop()`: the popped entry and the state after. The slot keeps its value (92 D27, log 24). -/
def pop (s : State) : Except FaultCause (Word × State) :=
  match s.sp with
  | ⟨0, _⟩ => .error (.stackUnderflow 0)
  | ⟨j + 1, h⟩ => .ok (s.stack[j], s.setStack s.stack ⟨j, Nat.lt_of_succ_lt h⟩)

/-! ### Faults (60_exceptions) -/

/-- The `code` field of a record (R210). -/
def FaultCause.code : FaultCause → Nat
  | .decodeError _ _ => 1
  | .fetchBounds _ => 2
  | .memReadBounds _ => 3
  | .memWriteBounds _ => 4
  | .stackOverflow _ => 5
  | .stackUnderflow _ => 6
  | .keyIndex _ => 7
  | .loadCapacity _ => 8

/-- The `info` field of a record, as the numbers R210 lists (for DECODE_ERROR the word, then its family). -/
def FaultCause.info : FaultCause → List Nat
  | .decodeError w f => [w.toNat, f.toNat]
  | .fetchBounds pc => [pc.toNat]
  | .memReadBounds a => [a]
  | .memWriteBounds a => [a]
  | .stackOverflow sp => [sp]
  | .stackUnderflow sp => [sp]
  | .keyIndex k => [k.toNat]
  | .loadCapacity n => [n]

/-- Taking a fault, from the state the cycle would leave untouched: the block halts with the record of R212 and
nothing else changes, and the tick does not run (R213). `opcode` is the word fetched, absent when there is none.
There is no return from a fault: only reset clears `status` (R217). -/
def raiseFault (opcode : Option Word) (c : FaultCause) (s : State) : State :=
  s.setStatus (.halted ⟨s.pc, opcode, c⟩)

/-- The end of an execute step begun in `s`: all of its writes or, if a statement raised, none of them (00_scope R10).
The record's word is the latched one (R212). -/
def commit (s : State) (r : Except FaultCause State) : Outcome :=
  match r with
  | .ok t => .next t
  | .error c => .next (raiseFault (some s.opcode) c s)

/-- The fault a rejected word raises (30_encoding R82). -/
def causeOfDecodeError : DecodeError → FaultCause
  | .decodeError w f => .decodeError w f

/-! ### The cycle around the execute step (30_encoding R80) -/

/-- `Fetch16(pc)` (00_scope R9, R81). -/
def fetch16 (m : Memory) (pc : Word) : Except FaultCause Word :=
  if 4094 < pc.toNat then .error (.fetchBounds pc)
  else .ok (wordOfBytes (m.read pc.toNat) (m.read (pc.toNat + 1)))

/-- The four pc classes of R83. -/
inductive PcClass where
  | normal
  | jumpOrCall
  | skip
  | wait
  deriving DecidableEq, Repr

/-- The pc class of each instruction (R83). -/
def pcClass : Instr → PcClass
  | .cls => .normal
  | .ret => .normal
  | .jp _ => .jumpOrCall
  | .call _ => .jumpOrCall
  | .seImm _ _ => .skip
  | .sneImm _ _ => .skip
  | .seReg _ _ => .skip
  | .ldImm _ _ => .normal
  | .addImm _ _ => .normal
  | .ldReg _ _ => .normal
  | .orReg _ _ => .normal
  | .andReg _ _ => .normal
  | .xorReg _ _ => .normal
  | .addReg _ _ => .normal
  | .subReg _ _ => .normal
  | .shr _ _ => .normal
  | .subnReg _ _ => .normal
  | .shl _ _ => .normal
  | .sneReg _ _ => .skip
  | .ldI _ => .normal
  | .jpV0 _ => .jumpOrCall
  | .rnd _ _ => .normal
  | .drw _ _ _ => .normal
  | .skp _ => .skip
  | .sknp _ => .skip
  | .ldVxDT _ => .normal
  | .ldVxK _ => .wait
  | .ldDTVx _ => .normal
  | .ldSTVx _ => .normal
  | .addI _ => .normal
  | .ldF _ => .normal
  | .ldB _ => .normal
  | .ldMemVx _ => .normal
  | .ldVxMem _ => .normal

/-- `PcUpdate(ins)`: the normal class advances `pc` by 2 from where execute left it; the others have set it (R83). -/
def pcUpdate (i : Instr) (s : State) : State :=
  match pcClass i with
  | .normal => s.setPc (s.pc + 2)
  | .jumpOrCall => s
  | .skip => s
  | .wait => s

/-- One decrement of a timer, stopping at 0 (R220). -/
def tickDown (b : Byte) : Byte := if b = 0 then 0 else b - 1

/-- `TimerTick()` (R220). -/
def timerTick (s : State) : State := (s.setDT (tickDown s.dt)).setST (tickDown s.st)

/-- The rest of a cycle after the execute step of `i`: PcUpdate and the tick, neither of them if the step raised
(R80, R213). -/
def completeCycle (i : Instr) (o : Outcome) : Outcome :=
  match o with
  | .next t =>
    match t.status with
    | .running => .next (timerTick (pcUpdate i t))
    | .halted _ => .next t
  | .fault r => .fault r
  | .refused r => .refused r

/-! ### Storing a word where the fetch reads it -/

/-- `s` with the word `w` at `pc` and `pc + 1`, high byte first (R81); unchanged where no word can be fetched. -/
def storeWordAtPc (s : State) (w : Word) : State :=
  if 4094 < s.pc.toNat then s
  else s.setMem ((s.mem.write s.pc.toNat (hiByte w)).write (s.pc.toNat + 1) (loByte w))

end Sys2Proof.Machine
end

