-- ==== Sys2Proof/Machine/Flags.lean ====
section
/-! DEFINITION. Every value an instruction writes to VF as a flag (10_state R21), computed on exact integers.
The collision flag of DXYN is computed with the draw, in Display.lean. -/

namespace Sys2Proof.Machine

/-- A comparison stored as a flag: 1 for true, 0 for false (00_scope R7). -/
def flagOf (c : Bool) : Byte := if c then 1 else 0

/-- The carry of 8XY4: the exact sum exceeds 255 (41_alu R126). -/
def carryFlag (a b : Byte) : Byte := flagOf (decide (255 < a.toNat + b.toNat))

/-- The no-borrow flag of 8XY5 and 8XY7: the minuend is at least the subtrahend (R127, R129; 92 D3, log 10). -/
def noBorrowFlag (minuend subtrahend : Byte) : Byte := flagOf (decide (subtrahend.toNat ≤ minuend.toNat))

/-- The bit 8XY6 shifts out (R128). -/
def lowBitFlag (a : Byte) : Byte := flagOf (a.getLsbD 0)

/-- The bit 8XYE shifts out (R130). -/
def highBitFlag (a : Byte) : Byte := flagOf (a.getLsbD 7)

/-- The overflow flag of FX1E: the exact sum exceeds 0xFFF (42_index_memory R151; 92 D11, log 15). -/
def indexOverflowFlag (i : Word) (b : Byte) : Byte := flagOf (decide (0xFFF < i.toNat + b.toNat))

end Sys2Proof.Machine
end

