-- ==== Sys2Proof/Machine/Operands.lean ====
section
/-! DEFINITION. The operand forms. A register number names its register directly and every immediate is zero-extended
(30_encoding R73); the one data address form is `I + k`, an exact integer (42_index_memory R156, 20_memory R54); a key
number is a register's value (44_keys_timers R190); a sprite bit lands on a cell (43_display R172). -/

namespace Sys2Proof.Machine

/-- `zext_16(NNN)` (R73). -/
def zextAddr (nnn : Addr) : Word := nnn.setWidth 16

/-- A byte as a 16-bit addend (R107, R151). -/
def zextByte (b : Byte) : Word := b.setWidth 16

/-- The address `I + k`, never wrapped (R156, 20_memory R54). -/
def State.addrI (s : State) (k : Nat) : Nat := s.i.toNat + k

/-- `V[0]` to `V[x]`, the bytes FX55 stores, in the order it stores them (R154). -/
def State.regsUpTo (s : State) (x : Reg) : List Byte := s.v.toList.take (x.val + 1)

/-- Hundreds, tens and ones of a byte, in the order FX33 stores them (R153). -/
def decimalDigits (b : Byte) : List Byte :=
  [trunc8 (b.toNat / 100), trunc8 ((b.toNat / 10) % 10), trunc8 (b.toNat % 10)]

/-- `KeyDown(k)` for a key number held in a register; above 15 it raises KEY_INDEX (R190, 92 D12; log 18). -/
def keyDown (s : State) (k : Byte) : Except FaultCause Bool :=
  if h : k.toNat < 16 then .ok s.keys[k.toNat] else .error (.keyIndex k)

/-- The key numbers in the order FX0A scans them (R193). -/
def keyOrder : List (Fin 16) := [0, 1, 2, 3, 4, 5, 6, 7, 8, 9, 10, 11, 12, 13, 14, 15]

/-- The lowest pressed key, if there is one (R193). -/
def lowestKey (keys : Vector Bool 16) : Option (Fin 16) := keyOrder.find? (fun k => keys[k])

/-- `Cell(x0, y0, r, c)`: each coordinate wraps on its own (R172, 92 D5; log 12). -/
def cellOf (x0 y0 : Byte) (r c : Nat) : Fin 64 × Fin 32 :=
  (Fin.ofNat 64 (x0.toNat + c), Fin.ofNat 32 (y0.toNat + r))

end Sys2Proof.Machine
end

