-- ==== Sys2Proof/Machine/Alu.lean ====
section
/-! DEFINITION. Execute of 6XNN, 7XNN, 8XY0 to 8XY7, 8XYE and CXNN (41_alu). Statements run in the written order of the
spec's pseudocode, which shows when X or Y is 15 (92 D2; log 9). -/

namespace Sys2Proof.Machine

/-- 6XNN (R120). -/
def execLdImm (x : Reg) (nn : Byte) (s : State) : Outcome := .next (s.setV x nn)

/-- 7XNN (R121): wraps mod 256, no flag. -/
def execAddImm (x : Reg) (nn : Byte) (s : State) : Outcome := .next (s.setV x (s.getV x + nn))

/-- 8XY0 (R122). -/
def execLdReg (x y : Reg) (s : State) : Outcome := .next (s.setV x (s.getV y))

/-- 8XY1 (R123). -/
def execOrReg (x y : Reg) (s : State) : Outcome := .next (s.setV x (s.getV x ||| s.getV y))

/-- 8XY2 (R124). -/
def execAndReg (x y : Reg) (s : State) : Outcome := .next (s.setV x (s.getV x &&& s.getV y))

/-- 8XY3 (R125). -/
def execXorReg (x y : Reg) (s : State) : Outcome := .next (s.setV x (s.getV x ^^^ s.getV y))

/-- `V[X] <- trunc_8(V[X] + V[Y])`, reading both registers as they stand. -/
def addInto (x y : Reg) (s : State) : State := s.setV x (s.getV x + s.getV y)

/-- 8XY4 (R126): VF takes the carry first; the sum then reads V[X] and V[Y] with the new VF. -/
def execAddReg (x y : Reg) (s : State) : Outcome :=
  .next (addInto x y (s.setV vf (carryFlag (s.getV x) (s.getV y))))

/-- A result into V[X], then a flag into VF: the order of 8XY5, 8XY6, 8XY7 and 8XYE (R127 to R130). -/
def resultThenFlag (x : Reg) (result flag : Byte) (s : State) : State := (s.setV x result).setV vf flag

/-- 8XY5 (R127). -/
def execSubReg (x y : Reg) (s : State) : Outcome :=
  .next (resultThenFlag x (s.getV x - s.getV y) (noBorrowFlag (s.getV x) (s.getV y)) s)

/-- 8XY6 (R128): shifts V[X] in place; Y is not read (92 D4; log 11). -/
def execShr (x _y : Reg) (s : State) : Outcome :=
  .next (resultThenFlag x (s.getV x >>> 1) (lowBitFlag (s.getV x)) s)

/-- 8XY7 (R129). -/
def execSubnReg (x y : Reg) (s : State) : Outcome :=
  .next (resultThenFlag x (s.getV y - s.getV x) (noBorrowFlag (s.getV y) (s.getV x)) s)

/-- 8XYE (R130): shifts V[X] in place; Y is not read (92 D4; log 11). -/
def execShl (x _y : Reg) (s : State) : Outcome :=
  .next (resultThenFlag x (s.getV x <<< 1) (highBitFlag (s.getV x)) s)

/-- `V[X] <- r & NN` for the byte `r` drawn, which is then spent (R131). -/
def randomInto (r : Byte) (x : Reg) (nn : Byte) (s : State) : State :=
  (s.setV x (r &&& nn)).setDraws (s.draws + 1)

/-- CXNN (R131): the byte is the free value of the next draw (00_scope R12; log 2). -/
def execRnd (x : Reg) (nn : Byte) (s : State) : Outcome := .next (randomInto (Config.randomByte s.draws) x nn s)

end Sys2Proof.Machine
end

