-- ==== Sys2Proof/Machine/ControlFlow.lean ====
section
/-! DEFINITION. Execute of 00EE, 1NNN, 2NNN, 3XNN, 4XNN, 5XY0, 9XY0 and BNNN (40_control_flow). A target is never
checked when it is set. -/

namespace Sys2Proof.Machine

/-- `pc <- trunc_16(pc + (cond ? 4 : 2))`: the execute step of the skip class (R83, R103). -/
def skipIf (cond : Bool) (s : State) : State := s.setPc (s.pc + if cond then 4 else 2)

/-- 00EE (R100): `pc` takes the popped call-site pc; PcUpdate then adds 2. -/
def execRet (s : State) : Outcome :=
  commit s (match pop s with
    | .error c => .error c
    | .ok (w, t) => .ok (t.setPc w))

/-- 1NNN (R101). -/
def execJp (nnn : Addr) (s : State) : Outcome := .next (s.setPc (zextAddr nnn))

/-- 2NNN (R102): pushes the address of this instruction. -/
def execCall (nnn : Addr) (s : State) : Outcome :=
  commit s (match push s.pc s with
    | .error c => .error c
    | .ok t => .ok (t.setPc (zextAddr nnn)))

/-- 3XNN (R103). -/
def execSeImm (x : Reg) (nn : Byte) (s : State) : Outcome := .next (skipIf (s.getV x == nn) s)

/-- 4XNN (R104). -/
def execSneImm (x : Reg) (nn : Byte) (s : State) : Outcome := .next (skipIf (s.getV x != nn) s)

/-- 5XY0 (R105). -/
def execSeReg (x y : Reg) (s : State) : Outcome := .next (skipIf (s.getV x == s.getV y) s)

/-- 9XY0 (R106). -/
def execSneReg (x y : Reg) (s : State) : Outcome := .next (skipIf (s.getV x != s.getV y) s)

/-- BNNN (R107): the sum is not wrapped to 12 bits (92 D34; log 14). -/
def execJpV0 (nnn : Addr) (s : State) : Outcome := .next (s.setPc (zextAddr nnn + zextByte (s.getV 0)))

end Sys2Proof.Machine
end

