-- ==== Sys2Proof/Machine/Display.lean ====
section
/-! DEFINITION. Execute of 00E0 and DXYN (43_display). -/

namespace Sys2Proof.Machine

/-- Every cell 0. -/
def clearFb : Framebuffer := Vector.replicate 64 (Vector.replicate 32 false)

/-- 00E0 (R170). -/
def execCls (s : State) : Outcome := .next ((s.setFb clearFb).setRedraw true)

/-- The columns of a sprite row, bit 7 first (R171). -/
def columns : List Nat := [0, 1, 2, 3, 4, 5, 6, 7]

/-- The cells the set bits of sprite row `r` land on, by rising column: bit `7 - c` is column `c` (R171, R172). -/
def rowCells (x0 y0 : Byte) (r : Nat) (row : Byte) : List (Fin 64 × Fin 32) :=
  columns.filterMap (fun c => if row.getLsbD (7 - c) then some (cellOf x0 y0 r c) else none)

/-- The cells of all set bits of the rows, the first of them row `r`, in the order the draw visits them (R171). -/
def spriteCells (x0 y0 : Byte) (r : Nat) : List Byte → List (Fin 64 × Fin 32)
  | [] => []
  | row :: rows => rowCells x0 y0 r row ++ spriteCells x0 y0 (r + 1) rows

/-- XOR one set sprite bit onto its cell; the Bool is the collision so far: a set cell is turned off (R171). -/
def flipCell (p : Framebuffer × Bool) (c : Fin 64 × Fin 32) : Framebuffer × Bool :=
  (p.1.set c.1 (p.1[c.1].set c.2 (!p.1[c.1][c.2])), p.2 || p.1[c.1][c.2])

/-- The framebuffer after the draw and whether any set cell was turned off (R171). -/
def drawSprite (fb : Framebuffer) (x0 y0 : Byte) (rows : List Byte) : Framebuffer × Bool :=
  (spriteCells x0 y0 0 rows).foldl flipCell (fb, false)

/-- The writes of DXYN for a finished draw: the cells, then VF, then the redraw flag (R171). -/
def showSprite (p : Framebuffer × Bool) (s : State) : State :=
  ((s.setFb p.1).setV vf (flagOf p.2)).setRedraw true

/-- DXYN (R171): the coordinates and the rows are read before any write (92 D6; log 9). -/
def execDrw (x y : Reg) (n : Nibble) (s : State) : Outcome :=
  commit s (match readBytes s.mem (s.addrI 0) n.toNat with
    | .error c => .error c
    | .ok rows => .ok (showSprite (drawSprite s.fb (s.getV x) (s.getV y) rows) s))

end Sys2Proof.Machine
end

