-- ==== Sys2Proof/Machine/IndexMemory.lean ====
section
/-! DEFINITION. Execute of ANNN, FX1E, FX29, FX33, FX55 and FX65 (42_index_memory). A fault makes the whole instruction
write nothing (00_scope R10, through `commit`). -/

namespace Sys2Proof.Machine

/-- ANNN (R150). -/
def execLdI (nnn : Addr) (s : State) : Outcome := .next (s.setI (zextAddr nnn))

/-- `I <- trunc_16(I + V[X])`, reading V[X] as it stands (R151). -/
def addIntoI (x : Reg) (s : State) : State := s.setI (s.i + zextByte (s.getV x))

/-- FX1E (R151): VF takes the overflow flag first; the sum then reads V[X] with the new VF. -/
def execAddI (x : Reg) (s : State) : Outcome :=
  .next (addIntoI x (s.setV vf (indexOverflowFlag s.i (s.getV x))))

/-- FX29 (R152): V[X] is not masked to 4 bits. -/
def execLdF (x : Reg) (s : State) : Outcome := .next (s.setI (trunc16 ((s.getV x).toNat * 5)))

/-- FX33 (R153): I is unchanged. -/
def execLdB (x : Reg) (s : State) : Outcome :=
  commit s (match writeBytes s.mem (s.addrI 0) (decimalDigits (s.getV x)) with
    | .error c => .error c
    | .ok m => .ok (s.setMem m))

/-- `I <- trunc_16(I + X + 1)` (R154, R155). -/
def advanceI (x : Reg) (s : State) : State := s.setI (trunc16 (s.i.toNat + x.val + 1))

/-- FX55 (R154). -/
def execLdMemVx (x : Reg) (s : State) : Outcome :=
  commit s (match writeBytes s.mem (s.addrI 0) (s.regsUpTo x) with
    | .error c => .error c
    | .ok m => .ok (advanceI x (s.setMem m)))

/-- FX65 (R155). -/
def execLdVxMem (x : Reg) (s : State) : Outcome :=
  commit s (match readBytes s.mem (s.addrI 0) (x.val + 1) with
    | .error c => .error c
    | .ok bs => .ok (advanceI x (s.setRegs (loadRegs s.v 0 bs))))

end Sys2Proof.Machine
end

