-- ==== Sys2Proof/Machine/KeysTimers.lean ====
section
/-! DEFINITION. Execute of EX9E, EXA1, FX07, FX0A, FX15 and FX18 (44_keys_timers). The timer tick is not here: it runs
after the execute step of every cycle that completes. -/

namespace Sys2Proof.Machine

/-- EX9E (R190). -/
def execSkp (x : Reg) (s : State) : Outcome :=
  commit s (match keyDown s (s.getV x) with
    | .error c => .error c
    | .ok down => .ok (skipIf down s))

/-- EXA1 (R191). -/
def execSknp (x : Reg) (s : State) : Outcome :=
  commit s (match keyDown s (s.getV x) with
    | .error c => .error c
    | .ok down => .ok (skipIf (!down) s))

/-- FX07 (R192): DT before this cycle's tick. -/
def execLdVxDT (x : Reg) (s : State) : Outcome := .next (s.setV x s.dt)

/-- FX0A (R193): with a key pressed it advances like a normal instruction; with none nothing changes, `pc` included. -/
def execLdVxK (x : Reg) (s : State) : Outcome :=
  .next (match lowestKey s.keys with
    | some k => (s.setV x (trunc8 k.val)).setPc (s.pc + 2)
    | none => s)

/-- FX15 (R194). -/
def execLdDTVx (x : Reg) (s : State) : Outcome := .next (s.setDT (s.getV x))

/-- FX18 (R195). -/
def execLdSTVx (x : Reg) (s : State) : Outcome := .next (s.setST (s.getV x))

end Sys2Proof.Machine
end

