-- ==== Sys2Proof/Machine/Step.lean ====
section
/-! DEFINITION. One cycle (30_encoding R80): halted check, fetch, decode, execute, PcUpdate, tick. -/

namespace Sys2Proof.Machine

/-- `Cycle()` (R80). A halted block answers its recorded fault and changes nothing (60_exceptions R214). A raise in
the fetch, the decoder or the execute step is a next state that is halted (R213; log 5). Only a fetch that passes its
bounds check writes the opcode latch (10_state R34). -/
def step (s : State) : Host.Outcome State Fault Refusal :=
  match s.status with
  | .halted record => .fault (.halted record)
  | .running =>
    match fetch16 s.mem s.pc with
    | .error c => .next (raiseFault none c s)
    | .ok w =>
      match decode w with
      | .error e => .next (raiseFault (some w) (causeOfDecodeError e) (s.setOpcode w))
      | .ok i => completeCycle i (exec i (s.setOpcode w))

/-- `s` with the instruction word `w` of `nbits` bits, numbered as spec/opcode_table.json numbers them, stored where
`step` fetches its next instruction (log 19). -/
def State.withFetchWord (s : State) (nbits w : Nat) : State := storeWordAtPc s (trunc16 (w % 2 ^ nbits))

end Sys2Proof.Machine
end

