-- ==== Sys2Proof/Machine/HostEvents.lean ====
section
/-! DEFINITION. The interface of 60_exceptions R223: what the host can do between cycles, each as one event on a
session, and the outputs it can read. A proof about a whole run ranges over lists of these events; `step` alone is
the one event `cycle`. -/

namespace Sys2Proof.Machine

/-- A byte sequence written from address `a` upwards (70_reset R242). -/
def copyBytes (m : Memory) (a : Nat) : List Byte → Memory
  | [] => m
  | b :: bs => copyBytes (m.write a b) (a + 1) bs

/-- `Load(bytes)` (R242): the program from 0x200 upwards, or the LOAD_CAPACITY fault with no byte written. The record's
`pc` is the current one and its `opcode` is absent (log 6). -/
def load (bytes : List Byte) (s : State) : State :=
  if Config.progMax < bytes.length then raiseFault none (.loadCapacity bytes.length) s
  else s.setMem (copyBytes s.mem Config.progBase bytes)

/-- Reset asserted in state `s` (60_exceptions R223, 70_reset R240). The model's draw count goes on, so that a new run
draws new random bytes (log 2); the keys read released until the host sets them again (10_state R39, log 23). -/
def resetFrom (s : State) : State := State.reset.setDraws s.draws

/-- The host's inputs (R223). `rand` is not an event: it is the free value of log 2. -/
inductive HostEvent where
  /-- `reset`, at any time between cycles. -/
  | reset
  /-- `load(bytes)`, after reset and before the first cycle. -/
  | load (bytes : List Byte)
  /-- `cycle`. -/
  | cycle
  /-- A new value of the 16 key inputs. -/
  | setKeys (keys : Vector Bool 16)
  /-- `redraw_clear`. -/
  | redrawClear
  deriving DecidableEq, Repr

/-- The block and, the model's own, whether a cycle has been invoked since reset, which decides whether `load` is
still one of the host's liberties (R224 (e); log 8). -/
structure Session where
  machine : State
  cycled : Bool
  deriving DecidableEq, Repr

/-- The session right after the first reset (R240). -/
def Session.start : Session := ⟨State.reset, false⟩

/-- One host event (R223). A load after the first cycle is refused (R224 (e); log 8); a load or a cycle of a halted
block answers the recorded fault and changes nothing (R214; log 7). DESIGN CHOICE (log 27): a second load before the
first cycle, on which R242 is silent, is accepted and written over the first, so the bytes of a longer first program
that it does not reach stay. -/
def hostStep (e : HostEvent) (x : Session) : Host.Outcome Session Fault Refusal :=
  match e with
  | .reset => .next ⟨resetFrom x.machine, false⟩
  | .load bytes =>
    match x.cycled, x.machine.status with
    | true, _ => .refused .loadAfterFirstCycle
    | false, .halted record => .fault (.halted record)
    | false, .running => .next ⟨load bytes x.machine, false⟩
  | .cycle =>
    match step x.machine with
    | .next t => .next ⟨t, true⟩
    | .fault r => .fault r
    | .refused r => .refused r
  | .setKeys keys => .next ⟨x.machine.setKeys keys, x.cycled⟩
  | .redrawClear => .next ⟨x.machine.setRedraw false, x.cycled⟩

/-! ### Outputs (R223). `fb`, `should_redraw` and `status` are the fields of State. -/

/-- `sound_active` (R222). -/
def State.soundActive (s : State) : Bool := decide (0 < s.st.toNat)

/-- What a cycle returns to the host (30_encoding R80). -/
inductive CycleResult where
  | ok
  | fault (record : FaultRecord)
  deriving DecidableEq, Repr

/-- The return value of the cycle that left the block in state `s`: `Fault(record)` exactly when it is halted
(60_exceptions R213 (d), R214; log 5). -/
def State.cycleResult (s : State) : CycleResult :=
  match s.status with
  | .running => .ok
  | .halted record => .fault record

end Sys2Proof.Machine
end

