-- ==== Sys2Proof/Safety.lean ====
section
/-! DEFINITION. The terms claims about runs use: a running block, the invariant of the reachable states, and the
sessions a host can bring about. -/

namespace Sys2Proof.Machine

/-- The block is not halted (60_exceptions R214). -/
def State.isRunning (s : State) : Prop := s.status = .running

/-- What holds of every state a run reaches: memory is in its canonical form; `pc` is at most 0x10FE, the largest
value any instruction leaves (10_state R25); every stack entry in use is an address a 2NNN was fetched from, at most
4094 (40_control_flow R100); and a fault record names the `pc` and the word of the state it left (60_exceptions R212,
R213). -/
structure State.Inv (s : State) : Prop where
  memory : s.mem.wf
  pcBound : s.pc.toNat ≤ 0x10FE
  stackBound : ∀ j : Fin 16, j.val < s.sp.val → s.stack[j].toNat ≤ 4094
  recordAgrees : ∀ record, s.status = .halted record →
    record.pc = s.pc ∧ (record.opcode = none ∨ record.opcode = some s.opcode)

/-- The sessions some sequence of host events brings about, starting from the first reset (R223, R224). -/
inductive Reachable : Session → Prop where
  | start : Reachable Session.start
  | event (e : HostEvent) (x y : Session) : Reachable x → hostStep e x = .next y → Reachable y

end Sys2Proof.Machine
end

