-- ==== Sys2Proof/Certificates/Slice0/Obligations.lean ====
section
/-! DEFINITION. The statements for the provers, from the numbered rules of spec/. A docstring names the rule; where a
clause rests on a decision or an inference the spec marks as its own, or on a choice of the model, it says so. -/

open Sys2Proof Sys2Proof.Machine

namespace Sys2Proof.Claims

/-- Every word of a row decodes to the instruction its fields give (30_encoding R82). -/
def Encoding (mask pattern : Word) (f : Word → Instr) : Prop := ∀ w, w &&& mask = pattern → decode w = .ok (f w)

/-- The normal pc class (R83). -/
def Advances (i : Instr) : Prop := ∀ s, pcUpdate i s = { s with pc := s.pc + 2 }

/-- The jump, call, skip and wait classes: PcUpdate does nothing (R83). -/
def SetsOwnPc (i : Instr) : Prop := ∀ s, pcUpdate i s = s

/-- The instruction raises: it writes nothing and the block halts with this cause (60_exceptions R213). -/
def Raises (i : Instr) (s : State) (c : FaultCause) : Prop :=
  exec i s = .next { s with status := .halted ⟨s.pc, some s.opcode, c⟩ }

/-- A comparison stored as a flag (00_scope R7). -/
def flag (p : Prop) [Decidable p] : Byte := if p then 1 else 0

/-- The first address from `a` upwards that is above 4095 (20_memory R54). -/
def firstOutside (a : Nat) : Nat := max a 4096

/-- A set bit of the sprite at `I` lands on cell `(cx, cy)` (43_display R171, R172). -/
def SpriteHits (s : State) (x y : Reg) (n : Nibble) (cx : Fin 64) (cy : Fin 32) : Prop :=
  ∃ r c : Nat, r < n.toNat ∧ c < 8 ∧ (s.mem.read (s.i.toNat + r)).getLsbD (7 - c) = true ∧
    cx.val = ((s.getV x).toNat + c) % 64 ∧ cy.val = ((s.getV y).toNat + r) % 32

/-- The registers an instruction may write (10_state R21, R22). -/
def mayWriteReg (i : Instr) (j : Reg) : Bool :=
  match i with
  | .ldImm x _ => j == x
  | .addImm x _ => j == x
  | .ldReg x _ => j == x
  | .orReg x _ => j == x
  | .andReg x _ => j == x
  | .xorReg x _ => j == x
  | .addReg x _ => j == x || j == 15
  | .subReg x _ => j == x || j == 15
  | .shr x _ => j == x || j == 15
  | .subnReg x _ => j == x || j == 15
  | .shl x _ => j == x || j == 15
  | .rnd x _ => j == x
  | .drw _ _ _ => j == 15
  | .ldVxDT x => j == x
  | .ldVxK x => j == x
  | .addI _ => j == 15
  | .ldVxMem x => decide (j ≤ x)
  | .cls => false
  | .ret => false
  | .jp _ => false
  | .call _ => false
  | .seImm _ _ => false
  | .sneImm _ _ => false
  | .seReg _ _ => false
  | .sneReg _ _ => false
  | .ldI _ => false
  | .jpV0 _ => false
  | .skp _ => false
  | .sknp _ => false
  | .ldDTVx _ => false
  | .ldSTVx _ => false
  | .ldF _ => false
  | .ldB _ => false
  | .ldMemVx _ => false

/-- The instructions that write `I` (10_state R26). -/
def writesI (i : Instr) : Bool :=
  match i with
  | .ldI _ => true
  | .addI _ => true
  | .ldF _ => true
  | .ldMemVx _ => true
  | .ldVxMem _ => true
  | _ => false

/-- The execute faults an instruction may raise (60_exceptions R211). -/
def mayRaise (i : Instr) (c : FaultCause) : Prop :=
  match i with
  | .ret => c = .stackUnderflow 0
  | .call _ => c = .stackOverflow 16
  | .drw _ _ _ => ∃ a, c = .memReadBounds a
  | .ldVxMem _ => ∃ a, c = .memReadBounds a
  | .ldB _ => ∃ a, c = .memWriteBounds a
  | .ldMemVx _ => ∃ a, c = .memWriteBounds a
  | .skp _ => ∃ k, c = .keyIndex k
  | .sknp _ => ∃ k, c = .keyIndex k
  | _ => False

end Sys2Proof.Claims

open Sys2Proof.Claims

/-! ### Control flow (40_control_flow) -/

/-- R101: 1NNN sets `pc` to NNN, has no PcUpdate and changes nothing else; after a jump to 0xFFF the next fetch faults. -/
def Obligations.JumpSetsPc : Prop :=
  Encoding 0xF000 0x1000 (fun w => .jp (fieldNNN w)) ∧
  ∀ nnn, SetsOwnPc (.jp nnn) ∧
    ∀ s, ∃ t, exec (.jp nnn) s = .next t ∧ t.pc.toNat = nnn.toNat ∧ t = { s with pc := t.pc } ∧
      (nnn.toNat = 0xFFF → fetch16 t.mem t.pc = .error (.fetchBounds 0xFFF))

/-- R103 and R104: 3XNN and 4XNN skip one word exactly when V[X] is, or is not, NN; nothing else changes. A skip at 0xFFC
leaves `pc` where the next fetch faults. -/
def Obligations.SkipOnImmediate : Prop :=
  Encoding 0xF000 0x3000 (fun w => .seImm (fieldX w) (fieldNN w)) ∧
  Encoding 0xF000 0x4000 (fun w => .sneImm (fieldX w) (fieldNN w)) ∧
  ∀ x nn, SetsOwnPc (.seImm x nn) ∧ SetsOwnPc (.sneImm x nn) ∧
    ∀ s, exec (.seImm x nn) s = .next { s with pc := if s.getV x = nn then s.pc + 4 else s.pc + 2 } ∧
      exec (.sneImm x nn) s = .next { s with pc := if s.getV x ≠ nn then s.pc + 4 else s.pc + 2 } ∧
      (s.pc = 0xFFC → fetch16 s.mem (s.pc + 4) = .error (.fetchBounds 0x1000))

/-- R105 and R106 (that a low nibble other than 0 is a DECODE_ERROR is the spec's decision D8, log 16): 5XY0 and 9XY0
skip one word exactly when V[X] and V[Y] are equal, or differ. -/
def Obligations.SkipOnRegisters : Prop :=
  Encoding 0xF00F 0x5000 (fun w => .seReg (fieldX w) (fieldY w)) ∧
  Encoding 0xF00F 0x9000 (fun w => .sneReg (fieldX w) (fieldY w)) ∧
  (∀ w, (family w = 5 ∨ family w = 9) → fieldN w ≠ 0 → decode w = .error (.decodeError w (family w))) ∧
  ∀ x y, SetsOwnPc (.seReg x y) ∧ SetsOwnPc (.sneReg x y) ∧
    ∀ s, exec (.seReg x y) s = .next { s with pc := if s.getV x = s.getV y then s.pc + 4 else s.pc + 2 } ∧
      exec (.sneReg x y) s = .next { s with pc := if s.getV x ≠ s.getV y then s.pc + 4 else s.pc + 2 }

/-- R107 (that the sum is not wrapped to 12 bits is the spec's decision D34, log 14): BNNN sets `pc` to the exact sum
NNN + V[0]. -/
def Obligations.JumpPlusV0IsExact : Prop :=
  Encoding 0xF000 0xB000 (fun w => .jpV0 (fieldNNN w)) ∧
  ∀ nnn, SetsOwnPc (.jpV0 nnn) ∧
    ∀ s, ∃ t, exec (.jpV0 nnn) s = .next t ∧ t.pc.toNat = nnn.toNat + (s.getV 0).toNat ∧ t = { s with pc := t.pc }

/-- R102 and R13 (that the entry is the call site itself is the spec's decision D27, log 24): 2NNN pushes its own address
and jumps; with 16 entries in use it raises STACK_OVERFLOW. -/
def Obligations.CallPushesCallSite : Prop :=
  Encoding 0xF000 0x2000 (fun w => .call (fieldNNN w)) ∧
  ∀ nnn, SetsOwnPc (.call nnn) ∧ ∀ s : State,
    (∀ h : s.sp.val < 16, ∃ t, exec (.call nnn) s = .next t ∧ t.stack = s.stack.set s.sp.val s.pc h ∧
      t.sp.val = s.sp.val + 1 ∧ t.pc.toNat = nnn.toNat ∧ t = { s with stack := t.stack, sp := t.sp, pc := t.pc }) ∧
    (s.sp.val = 16 → Raises (.call nnn) s (.stackOverflow 16))

/-- R100 and R13 (that the slot keeps its value is the spec's decision D27, log 24): 00EE pops the call site into `pc`,
PcUpdate then adds 2; with an empty stack it raises STACK_UNDERFLOW. -/
def Obligations.ReturnPopsCallSite : Prop :=
  decode 0x00EE = .ok .ret ∧ Advances .ret ∧ ∀ s : State,
    (∀ j : Fin 16, s.sp.val = j.val + 1 →
      ∃ t, exec .ret s = .next t ∧ t.sp.val = j.val ∧ t = { s with sp := t.sp, pc := s.stack[j] }) ∧
    (s.sp.val = 0 → Raises .ret s (.stackUnderflow 0))

/-- 95_test_vectors L1-4, R100 and R102: a 2NNN and the 00EE at its target bring `pc` to the call site + 2, with the
stack pointer and every entry in use as before. -/
def Obligations.CallThenReturn : Prop :=
  ∀ (s t u : State) (nnn : Addr), s.status = .running → s.sp.val < 16 →
    fetch16 s.mem s.pc = .ok (encode (.call nnn)) → step s = .next t →
    fetch16 t.mem t.pc = .ok (encode .ret) → step t = .next u →
    t.pc.toNat = nnn.toNat ∧ u.status = .running ∧ u.pc = s.pc + 2 ∧ u.sp = s.sp ∧
      ∀ j : Fin 16, j.val < s.sp.val → u.stack[j] = s.stack[j]

/-! ### ALU (41_alu) -/

/-- R120, R121 and R122: 6XNN loads NN, 7XNN adds NN mod 256 without a flag, 8XY0 copies V[Y]; each changes V[X] alone. -/
def Obligations.LoadAddCopy : Prop :=
  Encoding 0xF000 0x6000 (fun w => .ldImm (fieldX w) (fieldNN w)) ∧
  Encoding 0xF000 0x7000 (fun w => .addImm (fieldX w) (fieldNN w)) ∧
  Encoding 0xF00F 0x8000 (fun w => .ldReg (fieldX w) (fieldY w)) ∧
  ∀ (x y : Reg) (nn : Byte), Advances (.ldImm x nn) ∧ Advances (.addImm x nn) ∧ Advances (.ldReg x y) ∧
    ∀ s, exec (.ldImm x nn) s = .next { s with v := s.v.set x nn } ∧
      exec (.addImm x nn) s = .next { s with v := s.v.set x (BitVec.ofNat 8 ((s.getV x).toNat + nn.toNat)) } ∧
      exec (.ldReg x y) s = .next { s with v := s.v.set x (s.getV y) }

/-- R123, R124 and R125 (that VF is not written is an inference the spec marks as derived): or, and, xor into V[X],
bit by bit; nothing else changes. -/
def Obligations.BitwiseOps : Prop :=
  Encoding 0xF00F 0x8001 (fun w => .orReg (fieldX w) (fieldY w)) ∧
  Encoding 0xF00F 0x8002 (fun w => .andReg (fieldX w) (fieldY w)) ∧
  Encoding 0xF00F 0x8003 (fun w => .xorReg (fieldX w) (fieldY w)) ∧
  ∀ x y, Advances (.orReg x y) ∧ Advances (.andReg x y) ∧ Advances (.xorReg x y) ∧
    ∀ s : State, ∃ t₁ t₂ t₃, exec (.orReg x y) s = .next t₁ ∧ exec (.andReg x y) s = .next t₂ ∧
      exec (.xorReg x y) s = .next t₃ ∧
      (∀ b, (t₁.getV x).getLsbD b = ((s.getV x).getLsbD b || (s.getV y).getLsbD b) ∧
        (t₂.getV x).getLsbD b = ((s.getV x).getLsbD b && (s.getV y).getLsbD b) ∧
        (t₃.getV x).getLsbD b = ((s.getV x).getLsbD b != (s.getV y).getLsbD b)) ∧
      (∀ j : Reg, j ≠ x → t₁.getV j = s.getV j ∧ t₂.getV j = s.getV j ∧ t₃.getV j = s.getV j) ∧
      t₁ = { s with v := t₁.v } ∧ t₂ = { s with v := t₂.v } ∧ t₃ = { s with v := t₃.v }

/-- R126 (that VF is written first and then read is the spec's decision D2, log 9): the sum mod 256 and the carry of
8XY4, with the corner cases of X or Y being 15. -/
def Obligations.AddWithCarry : Prop :=
  Encoding 0xF00F 0x8004 (fun w => .addReg (fieldX w) (fieldY w)) ∧
  ∀ (x y : Reg), Advances (.addReg x y) ∧ ∀ s : State, ∃ t, exec (.addReg x y) s = .next t ∧
    (x ≠ 15 → y ≠ 15 → (t.getV x).toNat = ((s.getV x).toNat + (s.getV y).toNat) % 256 ∧
      t.getV 15 = flag (255 < (s.getV x).toNat + (s.getV y).toNat)) ∧
    (x = 15 → y ≠ 15 →
      (t.getV x).toNat = ((flag (255 < (s.getV x).toNat + (s.getV y).toNat)).toNat + (s.getV y).toNat) % 256) ∧
    (x ≠ 15 → y = 15 → (t.getV x).toNat = ((s.getV x).toNat + (flag (255 < (s.getV x).toNat + (s.getV y).toNat)).toNat) % 256 ∧
      t.getV 15 = flag (255 < (s.getV x).toNat + (s.getV y).toNat)) ∧
    (x = 15 → y = 15 → (t.getV x).toNat = 2 * (flag (255 < 2 * (s.getV x).toNat)).toNat) ∧
    (∀ j : Reg, j ≠ x → j ≠ 15 → t.getV j = s.getV j) ∧ t = { s with v := t.v }

/-- R127 and R129 (the polarity and the equal case are the spec's decision D3, log 10; that the flag is written last is
D2, log 9): the difference mod 256 into V[X], then no-borrow into VF. -/
def Obligations.SubtractNoBorrow : Prop :=
  Encoding 0xF00F 0x8005 (fun w => .subReg (fieldX w) (fieldY w)) ∧
  Encoding 0xF00F 0x8007 (fun w => .subnReg (fieldX w) (fieldY w)) ∧
  ∀ (x y : Reg), Advances (.subReg x y) ∧ Advances (.subnReg x y) ∧
    ∀ s : State, ∃ t u, exec (.subReg x y) s = .next t ∧ exec (.subnReg x y) s = .next u ∧
      (x ≠ 15 → ((t.getV x).toNat : Int) = (((s.getV x).toNat : Int) - (s.getV y).toNat) % 256 ∧
        ((u.getV x).toNat : Int) = (((s.getV y).toNat : Int) - (s.getV x).toNat) % 256) ∧
      t.getV 15 = flag ((s.getV y).toNat ≤ (s.getV x).toNat) ∧ u.getV 15 = flag ((s.getV x).toNat ≤ (s.getV y).toNat) ∧
      (∀ j : Reg, j ≠ x → j ≠ 15 → t.getV j = s.getV j ∧ u.getV j = s.getV j) ∧
      t = { s with v := t.v } ∧ u = { s with v := u.v }

/-- R128 and R130 (that V[X] is shifted in place and Y is not read is the spec's decision D4, log 11; that the flag is
written last is D2, log 9): half or twice V[X] mod 256, then the bit shifted out into VF. -/
def Obligations.ShiftByOne : Prop :=
  Encoding 0xF00F 0x8006 (fun w => .shr (fieldX w) (fieldY w)) ∧
  Encoding 0xF00F 0x800E (fun w => .shl (fieldX w) (fieldY w)) ∧
  ∀ (x y : Reg), Advances (.shr x y) ∧ Advances (.shl x y) ∧
    ∀ s : State, ∃ t u, exec (.shr x y) s = .next t ∧ exec (.shl x y) s = .next u ∧
      (x ≠ 15 → (t.getV x).toNat = (s.getV x).toNat / 2 ∧ (u.getV x).toNat = (2 * (s.getV x).toNat) % 256) ∧
      (t.getV 15).toNat = (s.getV x).toNat % 2 ∧ (u.getV 15).toNat = (s.getV x).toNat / 128 ∧
      (∀ j : Reg, j ≠ x → j ≠ 15 → t.getV j = s.getV j ∧ u.getV j = s.getV j) ∧
      t = { s with v := t.v } ∧ u = { s with v := u.v }

/-- R131 (the random byte is a free value of the model, log 2; the statement holds whatever it is): CXNN puts the next
random byte, masked by NN, into V[X] and changes nothing else but the model's own count of draws. -/
def Obligations.RandomIsMasked : Prop :=
  Encoding 0xF000 0xC000 (fun w => .rnd (fieldX w) (fieldNN w)) ∧
  ∀ (x : Reg) (nn : Byte), Advances (.rnd x nn) ∧ ∀ s : State, ∃ t, exec (.rnd x nn) s = .next t ∧
    t.getV x = Config.randomByte s.draws &&& nn ∧ (∀ b, nn.getLsbD b = false → (t.getV x).getLsbD b = false) ∧
    (∀ j : Reg, j ≠ x → t.getV j = s.getV j) ∧ t = { s with v := t.v, draws := s.draws + 1 }

/-! ### The index register and memory (42_index_memory) -/

/-- R150 and R152: ANNN loads NNN into I, FX29 loads V[X] * 5; neither checks the value nor changes anything else. -/
def Obligations.LoadIndex : Prop :=
  Encoding 0xF000 0xA000 (fun w => .ldI (fieldNNN w)) ∧
  Encoding 0xF0FF 0xF029 (fun w => .ldF (fieldX w)) ∧
  ∀ (nnn : Addr) (x : Reg), Advances (.ldI nnn) ∧ Advances (.ldF x) ∧
    ∀ s : State, ∃ t u, exec (.ldI nnn) s = .next t ∧ exec (.ldF x) s = .next u ∧
      t.i.toNat = nnn.toNat ∧ u.i.toNat = (s.getV x).toNat * 5 ∧ t = { s with i := t.i } ∧ u = { s with i := u.i }

/-- R151 (the order of the two writes is the spec's decision D2, log 9; the exact comparison and the 16-bit wrap are D11
and D10, log 15): FX1E sets VF to whether the exact sum exceeds 0xFFF, then adds V[X], read after that, to I. -/
def Obligations.AddToIndex : Prop :=
  Encoding 0xF0FF 0xF01E (fun w => .addI (fieldX w)) ∧
  ∀ x : Reg, Advances (.addI x) ∧ ∀ s : State, ∃ t, exec (.addI x) s = .next t ∧
    t.getV 15 = flag (0xFFF < s.i.toNat + (s.getV x).toNat) ∧
    (x ≠ 15 → t.i.toNat = (s.i.toNat + (s.getV x).toNat) % 65536) ∧
    (x = 15 → t.i.toNat = (s.i.toNat + (flag (0xFFF < s.i.toNat + (s.getV x).toNat)).toNat) % 65536) ∧
    (∀ j : Reg, j ≠ 15 → t.getV j = s.getV j) ∧ t = { s with v := t.v, i := t.i }

/-- R153 (that I is unchanged is an inference the spec marks as derived; that nothing is written on a fault is the spec's
decision D13, log 17): FX33 stores the three decimal digits of V[X] at I, I+1 and I+2, and no other byte. -/
def Obligations.StoreDecimal : Prop :=
  Encoding 0xF0FF 0xF033 (fun w => .ldB (fieldX w)) ∧
  ∀ x : Reg, Advances (.ldB x) ∧ ∀ s : State,
    (s.i.toNat + 2 ≤ 4095 → ∃ t, exec (.ldB x) s = .next t ∧
      (t.mem.read s.i.toNat).toNat = (s.getV x).toNat / 100 ∧
      (t.mem.read (s.i.toNat + 1)).toNat = (s.getV x).toNat / 10 % 10 ∧
      (t.mem.read (s.i.toNat + 2)).toNat = (s.getV x).toNat % 10 ∧
      (∀ a, a < s.i.toNat ∨ s.i.toNat + 2 < a → t.mem.read a = s.mem.read a) ∧ t = { s with mem := t.mem }) ∧
    (4095 < s.i.toNat + 2 → Raises (.ldB x) s (.memWriteBounds (firstOutside s.i.toNat)))

/-- R154 (that nothing is written on a fault is the spec's decision D13, log 17): FX55 stores V[0] to V[X] at I upwards
and adds X + 1 to I; no other byte of memory and no register changes. -/
def Obligations.StoreRegisters : Prop :=
  Encoding 0xF0FF 0xF055 (fun w => .ldMemVx (fieldX w)) ∧
  ∀ x : Reg, Advances (.ldMemVx x) ∧ ∀ s : State,
    (s.i.toNat + x.val ≤ 4095 → ∃ t, exec (.ldMemVx x) s = .next t ∧
      (∀ j : Reg, j ≤ x → t.mem.read (s.i.toNat + j.val) = s.getV j) ∧
      (∀ a, a < s.i.toNat ∨ s.i.toNat + x.val < a → t.mem.read a = s.mem.read a) ∧
      t.i.toNat = s.i.toNat + x.val + 1 ∧ t = { s with mem := t.mem, i := t.i }) ∧
    (4095 < s.i.toNat + x.val → Raises (.ldMemVx x) s (.memWriteBounds (firstOutside s.i.toNat)))

/-- R155 (that nothing is written on a fault is the spec's decision D13, log 17): FX65 loads V[0] to V[X] from I upwards
and adds X + 1 to I; memory and the other registers are unchanged. -/
def Obligations.LoadRegisters : Prop :=
  Encoding 0xF0FF 0xF065 (fun w => .ldVxMem (fieldX w)) ∧
  ∀ x : Reg, Advances (.ldVxMem x) ∧ ∀ s : State,
    (s.i.toNat + x.val ≤ 4095 → ∃ t, exec (.ldVxMem x) s = .next t ∧
      (∀ j : Reg, j ≤ x → t.getV j = s.mem.read (s.i.toNat + j.val)) ∧ (∀ j : Reg, x < j → t.getV j = s.getV j) ∧
      t.i.toNat = s.i.toNat + x.val + 1 ∧ t = { s with v := t.v, i := t.i }) ∧
    (4095 < s.i.toNat + x.val → Raises (.ldVxMem x) s (.memReadBounds (firstOutside s.i.toNat)))

/-- From R154 and R155: what FX55 stores, FX65 with the same X loads back into V[0] to V[X], whatever the registers held
in between, once I points at the block again. -/
def Obligations.StoreThenLoadRestores : Prop :=
  ∀ (x : Reg) (s t u w : State), s.i.toNat + x.val ≤ 4095 → exec (.ldMemVx x) s = .next t →
    u.mem = t.mem → u.i = s.i → exec (.ldVxMem x) u = .next w → ∀ j : Reg, j ≤ x → w.getV j = s.getV j

/-- 20_memory R57 on the memory primitives of the model: a byte reads back as last written, a write leaves every other
address alone and keeps the canonical form, and two canonical memories that read alike everywhere are equal (the canonical
form is the model's). -/
def Obligations.MemoryIsPlainStorage : Prop :=
  (∀ (m : Memory) (a b : Nat) (v : Byte), (m.write a v).read b = if b = a then v else m.read b) ∧
  (∀ (m : Memory) (a : Nat) (v : Byte), m.wf → a ≤ 4095 → (m.write a v).wf) ∧
  ∀ m m' : Memory, m.wf → m'.wf → (∀ a, m.read a = m'.read a) → m = m'

/-! ### Display (43_display) -/

/-- R170: 00E0 clears every cell and sets `should_redraw`; nothing else changes. -/
def Obligations.ClearScreen : Prop :=
  decode 0x00E0 = .ok .cls ∧ Advances .cls ∧ ∀ s : State, ∃ t, exec .cls s = .next t ∧
    (∀ (cx : Fin 64) (cy : Fin 32), t.fb[cx][cy] = false) ∧ t = { s with fb := t.fb, shouldRedraw := true }

/-- R171, R172 and the first law of R173 (the wrap is the spec's decision D5, log 12; that the coordinates are read before
VF is written is D6, log 9; the equality with one XOR of the whole mask is marked derived): DXYN toggles exactly the
cells the sprite's set bits land on, VF says whether one of them was set, and nothing else but `should_redraw` changes. -/
def Obligations.DrawIsXorOfMask : Prop :=
  Encoding 0xF000 0xD000 (fun w => .drw (fieldX w) (fieldY w) (fieldN w)) ∧
  ∀ (x y : Reg) (n : Nibble), Advances (.drw x y n) ∧ ∀ s : State, (n.toNat = 0 ∨ s.i.toNat + n.toNat ≤ 4096) →
    ∃ t, exec (.drw x y n) s = .next t ∧
      (∀ (cx : Fin 64) (cy : Fin 32), (SpriteHits s x y n cx cy → t.fb[cx][cy] = !s.fb[cx][cy]) ∧
        (¬ SpriteHits s x y n cx cy → t.fb[cx][cy] = s.fb[cx][cy])) ∧
      ((∃ (cx : Fin 64) (cy : Fin 32), SpriteHits s x y n cx cy ∧ s.fb[cx][cy] = true) → t.getV 15 = 1) ∧
      ((¬ ∃ (cx : Fin 64) (cy : Fin 32), SpriteHits s x y n cx cy ∧ s.fb[cx][cy] = true) → t.getV 15 = 0) ∧
      (∀ j : Reg, j ≠ 15 → t.getV j = s.getV j) ∧ t = { s with fb := t.fb, v := t.v, shouldRedraw := true }

/-- R171 (that nothing is written on a fault is the spec's decision D13, log 17): a DXYN whose rows reach above 4095
raises MEM_READ_BOUNDS at the first such address. -/
def Obligations.DrawOutOfRange : Prop :=
  ∀ (x y : Reg) (n : Nibble) (s : State), n.toNat ≠ 0 → 4096 < s.i.toNat + n.toNat →
    Raises (.drw x y n) s (.memReadBounds (firstOutside s.i.toNat))

/-- R173, second and third law (marked derived; the cells the sprite lands on wrap by the spec's decision D5, log 12, so at
an edge the VF clause is about that policy): drawing the same sprite again at the same place restores the framebuffer, and
the second draw's VF is 1 exactly when the sprite has a cell that was 0 before the first draw. -/
def Obligations.DrawTwiceRestores : Prop :=
  ∀ (x y : Reg) (n : Nibble) (s t u w : State), (n.toNat = 0 ∨ s.i.toNat + n.toNat ≤ 4096) →
    exec (.drw x y n) s = .next t → u.fb = t.fb → u.mem = s.mem → u.i = s.i → u.getV x = s.getV x → u.getV y = s.getV y →
    exec (.drw x y n) u = .next w →
    w.fb = s.fb ∧ (w.getV 15 = 1 ↔ ∃ (cx : Fin 64) (cy : Fin 32), SpriteHits s x y n cx cy ∧ s.fb[cx][cy] = false)

/-! ### Keys and timers (44_keys_timers) -/

/-- R190 and R191 (the fault above 15 is the spec's decision D12, log 18): EX9E and EXA1 skip on the state of key V[X]. -/
def Obligations.SkipOnKey : Prop :=
  Encoding 0xF0FF 0xE09E (fun w => .skp (fieldX w)) ∧ Encoding 0xF0FF 0xE0A1 (fun w => .sknp (fieldX w)) ∧
  ∀ x : Reg, SetsOwnPc (.skp x) ∧ SetsOwnPc (.sknp x) ∧ ∀ s : State,
    (∀ k : Fin 16, (s.getV x).toNat = k.val →
      exec (.skp x) s = .next { s with pc := if s.keys[k] = true then s.pc + 4 else s.pc + 2 } ∧
      exec (.sknp x) s = .next { s with pc := if s.keys[k] = true then s.pc + 2 else s.pc + 4 }) ∧
    (15 < (s.getV x).toNat → Raises (.skp x) s (.keyIndex (s.getV x)) ∧ Raises (.sknp x) s (.keyIndex (s.getV x)))

/-- R193: FX0A takes the lowest pressed key into V[X] and advances by 2; with no key pressed its execute step changes
nothing at all. -/
def Obligations.WaitForKey : Prop :=
  Encoding 0xF0FF 0xF00A (fun w => .ldVxK (fieldX w)) ∧
  ∀ x : Reg, SetsOwnPc (.ldVxK x) ∧ ∀ s : State,
    (∀ k : Fin 16, s.keys[k] = true → (∀ j : Fin 16, j < k → s.keys[j] = false) →
      exec (.ldVxK x) s = .next { s with v := s.v.set x (BitVec.ofNat 8 k.val), pc := s.pc + 2 }) ∧
    ((∀ k : Fin 16, s.keys[k] = false) → exec (.ldVxK x) s = .next s)

/-- R193 and R220 (that the timers tick on a stall is the spec's decision D18, log 13): a stall cycle leaves everything but
the timers and the opcode latch as it was. -/
def Obligations.StallCycleOnlyTicks : Prop :=
  ∀ (x : Reg) (s : State), s.status = .running → fetch16 s.mem s.pc = .ok (encode (.ldVxK x)) →
    (∀ k : Fin 16, s.keys[k] = false) →
    ∃ t, step s = .next t ∧ t.dt.toNat = s.dt.toNat - 1 ∧ t.st.toNat = s.st.toNat - 1 ∧
      t = { s with opcode := t.opcode, dt := t.dt, st := t.st }

/-- R192 and R195: FX07 reads DT into V[X], before the tick; FX18 writes V[X] to ST, which the tick of the same cycle then
decrements, so that `sound_active` is 1 at the end of the cycle exactly when V[X] was above 1. -/
def Obligations.DelayReadSoundWrite : Prop :=
  Encoding 0xF0FF 0xF007 (fun w => .ldVxDT (fieldX w)) ∧ Encoding 0xF0FF 0xF018 (fun w => .ldSTVx (fieldX w)) ∧
  ∀ x : Reg, Advances (.ldVxDT x) ∧ Advances (.ldSTVx x) ∧
    ∀ s : State, exec (.ldVxDT x) s = .next { s with v := s.v.set x s.dt } ∧
      exec (.ldSTVx x) s = .next { s with st := s.getV x } ∧
      (s.status = .running → ∃ t u, completeCycle (.ldVxDT x) (exec (.ldVxDT x) s) = .next t ∧
        completeCycle (.ldSTVx x) (exec (.ldSTVx x) s) = .next u ∧
        t.getV x = s.dt ∧ t.dt.toNat = s.dt.toNat - 1 ∧ u.st.toNat = (s.getV x).toNat - 1 ∧
        (u.soundActive = true ↔ 1 < (s.getV x).toNat))

/-- R194 (the value after the cycle is an inference the spec marks as derived): FX15 writes V[X] to DT, which the tick of the
same cycle then decrements. -/
def Obligations.DelayWrite : Prop :=
  Encoding 0xF0FF 0xF015 (fun w => .ldDTVx (fieldX w)) ∧
  ∀ x : Reg, Advances (.ldDTVx x) ∧
    ∀ s : State, exec (.ldDTVx x) s = .next { s with dt := s.getV x } ∧
      (s.status = .running → ∃ t, completeCycle (.ldDTVx x) (exec (.ldDTVx x) s) = .next t ∧
        t.dt.toNat = (s.getV x).toNat - 1)

/-- R220 (on stall cycles the spec's decision D18, log 13): every cycle that does not fault decrements each timer that the
instruction itself did not write once, stopping at 0. -/
def Obligations.EveryCycleTicks : Prop :=
  ∀ (s t : State) (w : Word) (i : Instr), s.status = .running → fetch16 s.mem s.pc = .ok w → decode w = .ok i →
    step s = .next t → t.status = .running →
    ((∀ x, i ≠ .ldDTVx x) → t.dt.toNat = s.dt.toNat - 1) ∧ ((∀ x, i ≠ .ldSTVx x) → t.st.toNat = s.st.toNat - 1)

/-! ### Encoding (30_encoding) -/

/-- Decoding the word of any instruction gives the instruction back, with every operand (R71, R72, R82). -/
def Obligations.DecodeOfEncode : Prop := ∀ i : Instr, decode (encode i) = .ok i

/-- Encoding what a word decodes to gives the word back: no bit of a legal word is dropped (R71, R72, R82). -/
def Obligations.EncodeOfDecode : Prop := ∀ (w : Word) (i : Instr), decode w = .ok i → encode i = w

/-- R82 (the exact matches of families 0, 5 and 9 are the spec's decisions D7 and D8, log 16): a word decodes to an instruction
exactly when one row of the opcode map accepts it, that row alone and the instruction's own; else it is a DECODE_ERROR
with the word and its family. -/
def Obligations.DecodeIsTheOpcodeMap : Prop :=
  ∀ w : Word,
    (∀ i, decode w = .ok i → ∃ r, opcodeTable.filter (fun q => q.accepts w) = [r] ∧ r.mnemonic = i.mnemonic) ∧
    (∀ e, decode w = .error e → opcodeTable.filter (fun q => q.accepts w) = [] ∧ e = .decodeError w (family w))

/-- One word of each format, written out from the opcode map (R72; 95_test_vectors), and two illegal words (that the family 0
word 0x0123 is one is the spec's decision D7, log 16). -/
def Obligations.WordsDecode : Prop :=
  decode 0b0000000011100000 = .ok .cls ∧
  decode 0b0001001000110100 = .ok (.jp 0x234) ∧
  decode 0b0110101000101011 = .ok (.ldImm 0xA 0x2B) ∧
  decode 0b1000000100100100 = .ok (.addReg 1 2) ∧
  decode 0b1101000000010101 = .ok (.drw 0 1 5) ∧
  decode 0b1110010110011110 = .ok (.skp 5) ∧
  decode 0b1111001001100101 = .ok (.ldVxMem 2) ∧
  decode 0x0123 = .error (.decodeError 0x0123 0) ∧
  decode 0x812F = .error (.decodeError 0x812F 8)

/-! ### The cycle and its faults (30_encoding R80, 60_exceptions) -/

/-- R80 and R81: when the two bytes at `pc`, high byte first, decode to `i`, the cycle latches the word, executes `i` and, if
no statement raised, updates `pc` by its class and ticks. -/
def Obligations.StepRunsDecoded : Prop :=
  ∀ (s : State) (i : Instr), s.status = .running → s.pc.toNat ≤ 4094 →
    decodeBytes (s.mem.read s.pc.toNat) (s.mem.read (s.pc.toNat + 1)) = .ok i →
    ∀ t, exec i { s with opcode := s.mem.read s.pc.toNat ++ s.mem.read (s.pc.toNat + 1) } = .next t →
      (t.status = .running → step s = .next (timerTick (pcUpdate i t))) ∧
      (∀ record, t.status = .halted record → step s = .next t)

/-- R80, R82 and R215 (what a fault writes is the spec's decision D13, log 17; that raising is a next state is the model's
choice, log 5): `pc` above 4094 raises FETCH_BOUNDS with no word latched; an illegal word is latched and raises
DECODE_ERROR; neither executes, advances or ticks. -/
def Obligations.FetchAndDecodeFaults : Prop :=
  ∀ s : State, s.status = .running →
    (4094 < s.pc.toNat → step s = .next { s with status := .halted ⟨s.pc, none, .fetchBounds s.pc⟩ }) ∧
    (∀ w e, fetch16 s.mem s.pc = .ok w → decode w = .error e →
      step s = .next { s with opcode := w, status := .halted ⟨s.pc, some w, .decodeError w (family w)⟩ })

/-- R214 (the spec's decision D29): a cycle of a halted block answers the recorded fault, always. -/
def Obligations.HaltedAnswersItsRecord : Prop :=
  ∀ (s : State) (record : FaultRecord), s.status = .halted record → step s = .fault (.halted record)

/-- R213 and R212 (the spec's decision D13, log 17; that raising is a next state is the model's choice, log 5): a cycle that
faults changes nothing but the opcode latch and the status, and the record names the `pc` and, but for FETCH_BOUNDS, the
word of the faulting instruction. -/
def Obligations.FaultsArePrecise : Prop :=
  ∀ (s t : State) (record : FaultRecord), s.status = .running → step s = .next t → t.status = .halted record →
    t = { s with opcode := t.opcode, status := .halted record } ∧ record.pc = s.pc ∧
    ((record.cause = .fetchBounds s.pc ∧ record.opcode = none ∧ t.opcode = s.opcode) ∨
      (fetch16 s.mem s.pc = .ok t.opcode ∧ record.opcode = some t.opcode))

/-- R211 (marked derived): an instruction's execute step raises only the faults its rule names. -/
def Obligations.OnlyNamedFaults : Prop :=
  ∀ (i : Instr) (s t : State) (record : FaultRecord), s.status = .running → exec i s = .next t →
    t.status = .halted record → mayRaise i record.cause

/-- The model stops on no instruction: every execute step, and every cycle of a running block, answers a next state
(R80, R213; log 5). -/
def Obligations.RunningBlockAlwaysSteps : Prop :=
  (∀ (i : Instr) (s : State), ∃ t, exec i s = .next t) ∧ ∀ s : State, s.status = .running → ∃ t, step s = .next t

/-- R83: where `pc` stands after a cycle that does not fault, by the class of the instruction (00EE and the jumps have their
own statements). -/
def Obligations.PcAfterCycle : Prop :=
  ∀ (s t : State) (w : Word) (i : Instr), s.status = .running → fetch16 s.mem s.pc = .ok w → decode w = .ok i →
    step s = .next t → t.status = .running →
    (pcClass i = .normal → i ≠ .ret → t.pc = s.pc + 2) ∧
    (pcClass i = .skip → t.pc = s.pc + 2 ∨ t.pc = s.pc + 4) ∧
    (pcClass i = .wait → t.pc = if ∃ k : Fin 16, s.keys[k] = true then s.pc + 2 else s.pc)

/-! ### Whole-machine rules -/

/-- 10_state R21 and R22 (the reads of VF are marked derived): an execute step leaves every register alone that its rule does not name
as written. -/
def Obligations.RegistersKeptUnlessNamed : Prop :=
  ∀ (i : Instr) (s t : State) (j : Reg), exec i s = .next t → mayWriteReg i j = false → t.getV j = s.getV j

/-- 10_state R26 to R33 and 20_memory R50: who writes what. I, the stack and its pointer, the timers, the framebuffer,
`should_redraw` and memory change only through the instructions the spec names; no instruction writes the keys or the latch,
and none clears `should_redraw`. -/
def Obligations.OnlyNamedWriters : Prop :=
  ∀ (i : Instr) (s t : State), exec i s = .next t →
    (writesI i = false → t.i = s.i) ∧
    ((∀ nnn, i ≠ .call nnn) → t.stack = s.stack) ∧
    ((∀ nnn, i ≠ .call nnn) → i ≠ .ret → t.sp = s.sp) ∧
    ((∀ x, i ≠ .ldDTVx x) → t.dt = s.dt) ∧
    ((∀ x, i ≠ .ldSTVx x) → t.st = s.st) ∧
    (i ≠ .cls → (∀ x y n, i ≠ .drw x y n) → t.fb = s.fb ∧ t.shouldRedraw = s.shouldRedraw) ∧
    (s.shouldRedraw = true → t.shouldRedraw = true) ∧
    ((∀ x, i ≠ .ldB x) → (∀ x, i ≠ .ldMemVx x) → t.mem = s.mem) ∧
    t.keys = s.keys ∧ t.opcode = s.opcode

/-- 10_state R30: no instruction reads ST. Changing it alone changes nothing else in what an execute step does. (The two steps
start with one draw count, so both CXNN draw the same free byte: the model's choice, log 2, which is unsafe where two runs
are compared.) -/
def Obligations.SoundTimerIsNeverRead : Prop :=
  ∀ (i : Instr) (s t : State) (b : Byte), exec i s = .next t →
    ∃ t', exec i { s with st := b } = .next t' ∧ t = { t' with st := t.st }

/-- 10_state R28: no instruction reads a stack entry at or above `sp`. Changing such entries alone changes nothing but the
stack in what an execute step does, and the entries in use after it agree. (The two steps start with one draw count, so
both CXNN draw the same free byte: the model's choice, log 2, which is unsafe where two runs are compared.) -/
def Obligations.StaleSlotsAreNeverRead : Prop :=
  ∀ (i : Instr) (s t : State) (stack : Vector Word 16), (∀ j : Fin 16, j.val < s.sp.val → stack[j] = s.stack[j]) →
    exec i s = .next t →
    ∃ t', exec i { s with stack := stack } = .next t' ∧ t = { t' with stack := t.stack } ∧
      ∀ j : Fin 16, j.val < t.sp.val → t'.stack[j] = t.stack[j]

/-- 20_memory R61 (the spec's decision D25, log 21): a word stored at `pc`, its high byte first, is what the next fetch reads. -/
def Obligations.StoredWordIsFetched : Prop :=
  ∀ (s : State) (w : Nat), s.pc.toNat ≤ 4094 →
    fetch16 (s.withFetchWord 16 w).mem (s.withFetchWord 16 w).pc = .ok (BitVec.ofNat 16 w) ∧
    ∀ a, a ≠ s.pc.toNat → a ≠ s.pc.toNat + 1 → (s.withFetchWord 16 w).mem.read a = s.mem.read a

/-! ### Reset, load and the host (70_reset, 60_exceptions R223) -/

/-- 10_state R39, the values its document states: registers, stack and timers zeroed, `pc` 0x200. -/
def Obligations.ResetValues : Prop :=
  State.reset.pc = 0x200 ∧ State.reset.sp = 0 ∧ State.reset.dt = 0 ∧ State.reset.st = 0 ∧
  (∀ j : Reg, State.reset.getV j = 0) ∧ (∀ j : Fin 16, State.reset.stack[j] = 0)

/-- 10_state R39, the rest: not halted, I, framebuffer, redraw flag, keys and latch 0, the bytes from 0x050 to 0xFFF 0 (all the
spec's decision D16, log 4), the font bytes at 0x000 (the default of R37, PRESUMED, log 3). -/
def Obligations.ResetChosenValues : Prop :=
  State.reset.status = .running ∧ State.reset.i = 0 ∧ State.reset.shouldRedraw = false ∧ State.reset.opcode = 0 ∧
  (∀ (cx : Fin 64) (cy : Fin 32), State.reset.fb[cx][cy] = false) ∧ (∀ k : Fin 16, State.reset.keys[k] = false) ∧
  (∀ a, a < 80 → some (State.reset.mem.read a) = Config.font[a]?) ∧
  (∀ a, 80 ≤ a → State.reset.mem.read a = 0)

/-- The invariant holds after reset (10_state R25, R39; log 5). -/
def Obligations.ResetMeetsInvariant : Prop := State.reset.Inv

/-- Every cycle keeps the invariant: canonical memory, `pc` at most 0x10FE (10_state R25), stack entries in use at most 4094
(R100), a record that names the state it left (R212, R213). -/
def Obligations.StepKeepsInvariant : Prop := ∀ s t : State, s.Inv → step s = .next t → t.Inv

/-- Whatever the host does, in any order and for however long, every state the block reaches meets the invariant. (Its record
clause holds of LOAD_CAPACITY by the model's choice of that record's `pc` and word, log 6.) -/
def Obligations.ReachableMeetsInvariant : Prop := ∀ x : Session, Reachable x → x.machine.Inv

/-- 70_reset R242 (the halt after LOAD_CAPACITY is the spec's decision D32; the record's `pc` and absent word are the model's
choice, log 6; that it overlays whatever an earlier load left is log 27): a program of at most 3584 bytes is copied to
0x200 upwards and nothing else changes; a longer one writes no byte and halts the block. -/
def Obligations.LoadCopiesProgram : Prop :=
  ∀ (s : State) (bytes : List Byte),
    (bytes.length ≤ 3584 →
      (∀ j, ∀ h : j < bytes.length, (load bytes s).mem.read (0x200 + j) = bytes[j]) ∧
      (∀ a, a < 0x200 ∨ 0x200 + bytes.length ≤ a → (load bytes s).mem.read a = s.mem.read a) ∧
      (s.mem.wf → (load bytes s).mem.wf) ∧ load bytes s = { s with mem := (load bytes s).mem }) ∧
    (3584 < bytes.length →
      load bytes s = { s with status := .halted ⟨s.pc, none, .loadCapacity bytes.length⟩ })

/-- 60_exceptions R223 and R224 (the model's choices: reset clears the keys the host may still hold, log 23, and keeps the
model's own draw count, log 2; a load after the first cycle, which breaks the host's duty, is refused, log 8; every load
before it is carried out, a second one too, log 27): what each host event does to a session. -/
def Obligations.HostEventsBetweenCycles : Prop :=
  ∀ x : Session,
    hostStep .reset x = .next ⟨{ State.reset with draws := x.machine.draws }, false⟩ ∧
    (∀ keys, hostStep (.setKeys keys) x = .next ⟨{ x.machine with keys := keys }, x.cycled⟩) ∧
    hostStep .redrawClear x = .next ⟨{ x.machine with shouldRedraw := false }, x.cycled⟩ ∧
    (∀ t, step x.machine = .next t → hostStep .cycle x = .next ⟨t, true⟩) ∧
    (x.cycled = true → ∀ bytes, hostStep (.load bytes) x = .refused .loadAfterFirstCycle) ∧
    (x.cycled = false → x.machine.status = .running → ∀ bytes,
      hostStep (.load bytes) x = .next ⟨load bytes x.machine, false⟩)

/-- Every host event keeps the invariant, from every session that meets it, reached or not. (For a load above the capacity the
record clause holds by the model's choice of that record's `pc` and word, log 6.) -/
def Obligations.HostEventKeepsInvariant : Prop :=
  ∀ (e : HostEvent) (x y : Session), x.machine.Inv → hostStep e x = .next y → y.machine.Inv
end

