-- ==== Sys2Proof/Laws/Decode.lean ====
section
/-! SUPPORT. The bits and fields of an assembled word, a word from its fields, and the masks of the opcode map. -/

namespace Sys2Proof

/-! ### Bits of the fields and of the assembled words (30_encoding R71, R72) -/

theorem getLsbD_family (w : Word) (i : Nat) : (family w).getLsbD i = (decide (i < 4) && w.getLsbD (12 + i)) :=
  BitVec.getLsbD_extractLsb' ..

theorem getLsbD_fieldX (w : Word) (i : Nat) :
    (BitVec.ofFin (fieldX w) : Nibble).getLsbD i = (decide (i < 4) && w.getLsbD (8 + i)) :=
  BitVec.getLsbD_extractLsb' ..

theorem getLsbD_fieldY (w : Word) (i : Nat) :
    (BitVec.ofFin (fieldY w) : Nibble).getLsbD i = (decide (i < 4) && w.getLsbD (4 + i)) :=
  BitVec.getLsbD_extractLsb' ..

theorem getLsbD_fieldN (w : Word) (i : Nat) : (fieldN w).getLsbD i = (decide (i < 4) && w.getLsbD i) := by
  simp [fieldN, BitVec.getLsbD_extractLsb']

theorem getLsbD_fieldNN (w : Word) (i : Nat) : (fieldNN w).getLsbD i = (decide (i < 8) && w.getLsbD i) := by
  simp [fieldNN, BitVec.getLsbD_extractLsb']

theorem getLsbD_fieldNNN (w : Word) (i : Nat) : (fieldNNN w).getLsbD i = (decide (i < 12) && w.getLsbD i) := by
  simp [fieldNNN, BitVec.getLsbD_extractLsb']

theorem getLsbD_hiByte (w : Word) (i : Nat) : (hiByte w).getLsbD i = (decide (i < 8) && w.getLsbD (8 + i)) :=
  BitVec.getLsbD_extractLsb' ..

theorem getLsbD_loByte (w : Word) (i : Nat) : (loByte w).getLsbD i = (decide (i < 8) && w.getLsbD i) := by
  simp [loByte, BitVec.getLsbD_extractLsb']

theorem getLsbD_wordOfBytes (hi lo : Byte) (i : Nat) :
    (wordOfBytes hi lo).getLsbD i = if i < 8 then lo.getLsbD i else hi.getLsbD (i - 8) :=
  BitVec.getLsbD_append ..

theorem getLsbD_wordAddr (op : Nibble) (nnn : Addr) (i : Nat) :
    (wordAddr op nnn).getLsbD i = if i < 12 then nnn.getLsbD i else op.getLsbD (i - 12) :=
  BitVec.getLsbD_append ..

theorem getLsbD_wordRegByte (op : Nibble) (x : Reg) (nn : Byte) (i : Nat) :
    (wordRegByte op x nn).getLsbD i =
      if i < 8 then nn.getLsbD i
      else if i - 8 < 4 then (BitVec.ofFin x : Nibble).getLsbD (i - 8) else op.getLsbD (i - 8 - 4) :=
  (BitVec.getLsbD_append ..).trans (by rw [BitVec.getLsbD_append])

theorem getLsbD_wordRegReg (op : Nibble) (x y : Reg) (n : Nibble) (i : Nat) :
    (wordRegReg op x y n).getLsbD i =
      if i < 4 then n.getLsbD i
      else if i - 4 < 4 then (BitVec.ofFin y : Nibble).getLsbD (i - 4)
      else if i - 4 - 4 < 4 then (BitVec.ofFin x : Nibble).getLsbD (i - 4 - 4) else op.getLsbD (i - 4 - 4 - 4) :=
  (BitVec.getLsbD_append ..).trans (by rw [BitVec.getLsbD_append, BitVec.getLsbD_append])

/-! ### Fields of the assembled words -/

/-- A register number is determined by its four bits. -/
theorem reg_ext {x y : Reg} (h : ∀ i < 4, (BitVec.ofFin x : Nibble).getLsbD i = (BitVec.ofFin y : Nibble).getLsbD i) :
    x = y := by
  have : (BitVec.ofFin x : Nibble) = BitVec.ofFin y := BitVec.eq_of_getLsbD_eq h
  simpa using congrArg BitVec.toFin this

@[simp] theorem family_wordAddr (op : Nibble) (nnn : Addr) : family (wordAddr op nnn) = op := by
  apply BitVec.eq_of_getLsbD_eq; intro i hi
  rw [getLsbD_family, getLsbD_wordAddr]; simp [hi]

@[simp] theorem fieldNNN_wordAddr (op : Nibble) (nnn : Addr) : fieldNNN (wordAddr op nnn) = nnn := by
  apply BitVec.eq_of_getLsbD_eq; intro i hi
  rw [getLsbD_fieldNNN, getLsbD_wordAddr]; simp [hi]

@[simp] theorem family_wordRegByte (op : Nibble) (x : Reg) (nn : Byte) : family (wordRegByte op x nn) = op := by
  apply BitVec.eq_of_getLsbD_eq; intro i hi
  have h1 : ¬ 12 + i < 8 := by omega
  have h2 : ¬ 12 + i - 8 < 4 := by omega
  have h3 : 12 + i - 8 - 4 = i := by omega
  simp only [getLsbD_family, getLsbD_wordRegByte, hi, h1, h2, h3, decide_true, Bool.true_and, if_false]

@[simp] theorem fieldX_wordRegByte (op : Nibble) (x : Reg) (nn : Byte) : fieldX (wordRegByte op x nn) = x := by
  apply reg_ext; intro i hi
  have h1 : ¬ 8 + i < 8 := by omega
  have h2 : 8 + i - 8 = i := by omega
  simp only [getLsbD_fieldX, getLsbD_wordRegByte, hi, h1, h2, decide_true, Bool.true_and, if_true, if_false]

@[simp] theorem fieldNN_wordRegByte (op : Nibble) (x : Reg) (nn : Byte) : fieldNN (wordRegByte op x nn) = nn := by
  apply BitVec.eq_of_getLsbD_eq; intro i hi
  simp only [getLsbD_fieldNN, getLsbD_wordRegByte, hi, decide_true, Bool.true_and, if_true]

@[simp] theorem family_wordRegReg (op : Nibble) (x y : Reg) (n : Nibble) : family (wordRegReg op x y n) = op := by
  apply BitVec.eq_of_getLsbD_eq; intro i hi
  have h1 : ¬ 12 + i < 4 := by omega
  have h2 : ¬ 12 + i - 4 < 4 := by omega
  have h3 : ¬ 12 + i - 4 - 4 < 4 := by omega
  have h4 : 12 + i - 4 - 4 - 4 = i := by omega
  simp only [getLsbD_family, getLsbD_wordRegReg, hi, h1, h2, h3, h4, decide_true, Bool.true_and, if_false]

@[simp] theorem fieldX_wordRegReg (op : Nibble) (x y : Reg) (n : Nibble) : fieldX (wordRegReg op x y n) = x := by
  apply reg_ext; intro i hi
  have h1 : ¬ 8 + i < 4 := by omega
  have h2 : ¬ 8 + i - 4 < 4 := by omega
  have h3 : 8 + i - 4 - 4 = i := by omega
  simp only [getLsbD_fieldX, getLsbD_wordRegReg, hi, h1, h2, h3, decide_true, Bool.true_and, if_true, if_false]

@[simp] theorem fieldY_wordRegReg (op : Nibble) (x y : Reg) (n : Nibble) : fieldY (wordRegReg op x y n) = y := by
  apply reg_ext; intro i hi
  have h1 : ¬ 4 + i < 4 := by omega
  have h2 : 4 + i - 4 = i := by omega
  simp only [getLsbD_fieldY, getLsbD_wordRegReg, hi, h1, h2, decide_true, Bool.true_and, if_true, if_false]

@[simp] theorem fieldN_wordRegReg (op : Nibble) (x y : Reg) (n : Nibble) : fieldN (wordRegReg op x y n) = n := by
  apply BitVec.eq_of_getLsbD_eq; intro i hi
  simp only [getLsbD_fieldN, getLsbD_wordRegReg, hi, decide_true, Bool.true_and, if_true]

/-! ### A word from its fields -/

theorem wordAddr_fields (w : Word) : wordAddr (family w) (fieldNNN w) = w := by
  apply BitVec.eq_of_getLsbD_eq; intro i hi
  rw [getLsbD_wordAddr, getLsbD_family, getLsbD_fieldNNN]
  split
  · next h => simp [h]
  · next h =>
    have h1 : i - 12 < 4 := by omega
    have h2 : 12 + (i - 12) = i := by omega
    simp [h1, h2]

theorem wordRegByte_fields (w : Word) : wordRegByte (family w) (fieldX w) (fieldNN w) = w := by
  apply BitVec.eq_of_getLsbD_eq; intro i hi
  rw [getLsbD_wordRegByte, getLsbD_family, getLsbD_fieldX, getLsbD_fieldNN]
  split
  · next h => simp [h]
  · split
    · next h h' =>
      have h2 : 8 + (i - 8) = i := by omega
      simp [h', h2]
    · next h h' =>
      have h1 : i - 8 - 4 < 4 := by omega
      have h2 : 12 + (i - 8 - 4) = i := by omega
      simp [h1, h2]

theorem wordRegReg_fields (w : Word) : wordRegReg (family w) (fieldX w) (fieldY w) (fieldN w) = w := by
  apply BitVec.eq_of_getLsbD_eq; intro i hi
  rw [getLsbD_wordRegReg, getLsbD_family, getLsbD_fieldX, getLsbD_fieldY, getLsbD_fieldN]
  split
  · next h => simp [h]
  · split
    · next h h' =>
      have h2 : 4 + (i - 4) = i := by omega
      simp [h', h2]
    · split
      · next h h' h'' =>
        have h2 : 8 + (i - 4 - 4) = i := by omega
        simp [h'', h2]
      · next h h' h'' =>
        have h1 : i - 4 - 4 - 4 < 4 := by omega
        have h2 : 12 + (i - 4 - 4 - 4) = i := by omega
        simp [h1, h2]

/-- Any word is some family, register number and byte. -/
theorem exists_wordRegByte (w : Word) : ∃ op x nn, w = wordRegByte op x nn :=
  ⟨_, _, _, (wordRegByte_fields w).symm⟩

/-- Any word is some family, two register numbers and a nibble. -/
theorem exists_wordRegReg (w : Word) : ∃ op x y n, w = wordRegReg op x y n :=
  ⟨_, _, _, _, (wordRegReg_fields w).symm⟩

/-! ### Bytes of a word (20_memory R53) -/

@[simp] theorem wordOfBytes_hi_lo (w : Word) : wordOfBytes (hiByte w) (loByte w) = w := by
  apply BitVec.eq_of_getLsbD_eq; intro i hi
  rw [getLsbD_wordOfBytes, getLsbD_hiByte, getLsbD_loByte]
  split
  · next h => simp [h]
  · next h =>
    have h1 : i - 8 < 8 := by omega
    have h2 : 8 + (i - 8) = i := by omega
    simp [h1, h2]

/-! ### The masks of the opcode map (R82) in terms of the fields -/

/-- The three masks that leave fields free, bit by bit. -/
theorem getLsbD_masks {i : Nat} (hi : i < 16) :
    (0xF000#16).getLsbD i = decide (12 ≤ i) ∧
    (0xF00F#16).getLsbD i = (decide (12 ≤ i) || decide (i < 4)) ∧
    (0xF0FF#16).getLsbD i = (decide (12 ≤ i) || decide (i < 8)) := by
  revert i; decide

theorem family_of_and_F000 {w p : Word} (h : w &&& 0xF000#16 = p) : family w = family p := by
  subst h; apply BitVec.eq_of_getLsbD_eq; intro i hi
  rw [getLsbD_family, getLsbD_family, BitVec.getLsbD_and, (getLsbD_masks (i := 12 + i) (by omega)).1]; simp

theorem fields_of_and_F00F {w p : Word} (h : w &&& 0xF00F#16 = p) : family w = family p ∧ fieldN w = fieldN p := by
  subst h
  constructor <;> (apply BitVec.eq_of_getLsbD_eq; intro i hi)
  · rw [getLsbD_family, getLsbD_family, BitVec.getLsbD_and, (getLsbD_masks (i := 12 + i) (by omega)).2.1]; simp
  · rw [getLsbD_fieldN, getLsbD_fieldN, BitVec.getLsbD_and, (getLsbD_masks (i := i) (by omega)).2.1]; simp [hi]

theorem fields_of_and_F0FF {w p : Word} (h : w &&& 0xF0FF#16 = p) : family w = family p ∧ fieldNN w = fieldNN p := by
  subst h
  constructor <;> (apply BitVec.eq_of_getLsbD_eq; intro i hi)
  · rw [getLsbD_family, getLsbD_family, BitVec.getLsbD_and, (getLsbD_masks (i := 12 + i) (by omega)).2.2]; simp
  · rw [getLsbD_fieldNN, getLsbD_fieldNN, BitVec.getLsbD_and, (getLsbD_masks (i := i) (by omega)).2.2]; simp [hi]

theorem and_F000_iff (w : Word) (p : Nibble) : w &&& 0xF000#16 = wordAddr p 0 ↔ family w = p := by
  constructor
  · intro h; rw [family_of_and_F000 h, family_wordAddr]
  · rintro rfl
    apply BitVec.eq_of_getLsbD_eq; intro i hi
    rw [getLsbD_wordAddr, getLsbD_family, BitVec.getLsbD_and, (getLsbD_masks hi).1]
    split
    · next h => simp; omega
    · next h =>
      have h1 : i - 12 < 4 := by omega
      have h2 : 12 + (i - 12) = i := by omega
      have h3 : 12 ≤ i := by omega
      simp [h1, h2, h3]

theorem and_F00F_iff (w : Word) (p n : Nibble) :
    w &&& 0xF00F#16 = wordRegReg p 0 0 n ↔ family w = p ∧ fieldN w = n := by
  constructor
  · intro h; have := fields_of_and_F00F h; simpa using this
  · rintro ⟨rfl, rfl⟩
    apply BitVec.eq_of_getLsbD_eq; intro i hi
    rw [getLsbD_wordRegReg, getLsbD_family, getLsbD_fieldN, BitVec.getLsbD_and, (getLsbD_masks hi).2.1]
    split
    · next h => simp [h]
    · split
      · next h h' => simp [h]; omega
      · split
        · next h h' h'' => simp [h]; omega
        · next h h' h'' =>
          have h1 : i - 4 - 4 - 4 < 4 := by omega
          have h2 : 12 + (i - 4 - 4 - 4) = i := by omega
          have h3 : 12 ≤ i := by omega
          simp [h1, h2, h3]

theorem and_F0FF_iff (w : Word) (p : Nibble) (nn : Byte) :
    w &&& 0xF0FF#16 = wordRegByte p 0 nn ↔ family w = p ∧ fieldNN w = nn := by
  constructor
  · intro h; have := fields_of_and_F0FF h; simpa using this
  · rintro ⟨rfl, rfl⟩
    apply BitVec.eq_of_getLsbD_eq; intro i hi
    rw [getLsbD_wordRegByte, getLsbD_family, getLsbD_fieldNN, BitVec.getLsbD_and, (getLsbD_masks hi).2.2]
    split
    · next h => simp [h]
    · split
      · next h h' => simp [h]; omega
      · next h h' =>
        have h1 : i - 8 - 4 < 4 := by omega
        have h2 : 12 + (i - 8 - 4) = i := by omega
        have h3 : 12 ≤ i := by omega
        simp [h1, h2, h3]

theorem and_FFFF (w : Word) : w &&& 0xFFFF#16 = w := by
  have : (0xFFFF#16) = BitVec.allOnes 16 := by decide
  rw [this, BitVec.and_allOnes]

/-- Any two rows differ in a bit that both of them fix. -/
theorem opcodeTable_disjoint :
    opcodeTable.Pairwise (fun p q => p.mask &&& q.mask &&& (p.pattern ^^^ q.pattern) ≠ 0) := by decide

/-- Two rows that accept one word agree on every bit that both of them fix. -/
theorem accepts_agree {w : Word} {r q : OpcodeRow} (hr : r.accepts w = true) (hq : q.accepts w = true) :
    r.mask &&& q.mask &&& (r.pattern ^^^ q.pattern) = 0 := by
  simp only [OpcodeRow.accepts, beq_iff_eq] at hr hq
  rw [← hr, ← hq]
  ext i hi
  simp only [BitVec.getElem_and, BitVec.getElem_xor]
  cases w[i] <;> cases r.mask[i] <;> cases q.mask[i] <;> simp

/-- A decoder's rejection names the word and its family (R82, R91). -/
theorem decode_error {w : Word} {e : DecodeError} (h : decode w = .error e) : e = .decodeError w (family w) := by
  unfold decode at h
  simp only [decodeFamily0, decodeFamily8, decodeFamilyE, decodeFamilyF, decodeZeroNibble, illegal] at h
  split at h <;> (try split at h) <;> (try split at h) <;> cases h <;> rfl

end Sys2Proof
end

