-- ==== Sys2Proof/Laws/Display.lean ====
section
/-! SUPPORT. What a draw does to each cell: the fold over the sprite's cells is one XOR of the whole mask, because no
cell is hit twice (43_display R173), and the collision is whether a hit cell was set. -/

namespace Sys2Proof.Machine

/-- Two cells with the same coordinates are one. -/
theorem cell_ext {a b : Fin 64 × Fin 32} (hx : a.1 = b.1) (hy : a.2 = b.2) : a = b := Prod.ext hx hy

/-- One flip changes its own cell only. -/
theorem flipCell_cell (p : Framebuffer × Bool) (c : Fin 64 × Fin 32) (x : Fin 64) (y : Fin 32) :
    (flipCell p c).1[x][y] = if (x, y) = c then !p.1[x][y] else p.1[x][y] := by
  obtain ⟨cx, cy⟩ := c
  simp only [flipCell, Fin.getElem_fin, Vector.getElem_set, Prod.mk.injEq]
  by_cases hx : x = cx
  · subst hx
    by_cases hy : y = cy
    · subst hy; simp
    · have : (cy : Nat) ≠ y := fun e => hy (Fin.ext e.symm)
      simp [hy, this]
  · have : (cx : Nat) ≠ x := fun e => hx (Fin.ext e.symm)
    simp [hx, this]

theorem flipCell_collision (p : Framebuffer × Bool) (c : Fin 64 × Fin 32) :
    (flipCell p c).2 = (p.2 || p.1[c.1][c.2]) := rfl

/-- Flipping each of a list of distinct cells once. -/
theorem foldl_flipCell {cs : List (Fin 64 × Fin 32)} (h : cs.Nodup) (p : Framebuffer × Bool) :
    (∀ (x : Fin 64) (y : Fin 32), (cs.foldl flipCell p).1[x][y] = if (x, y) ∈ cs then !p.1[x][y] else p.1[x][y]) ∧
      ((cs.foldl flipCell p).2 = true ↔ p.2 = true ∨ ∃ c ∈ cs, p.1[c.1][c.2] = true) := by
  induction cs generalizing p with
  | nil => simp
  | cons c cs ih =>
    obtain ⟨hc, hn⟩ := List.nodup_cons.mp h
    obtain ⟨ih1, ih2⟩ := ih hn (flipCell p c)
    refine ⟨fun x y => ?_, ?_⟩
    · rw [List.foldl_cons, ih1, flipCell_cell]
      by_cases e : (x, y) = c
      · subst e; simp [hc]
      · simp [e]
    · rw [List.foldl_cons, ih2, flipCell_collision]
      have other : ∀ d ∈ cs, (flipCell p c).1[d.1][d.2] = p.1[d.1][d.2] := fun d hd => by
        rw [flipCell_cell, if_neg]; rintro rfl; exact hc hd
      simp only [Bool.or_eq_true, List.mem_cons, exists_eq_or_imp, or_assoc]
      exact or_congr Iff.rfl (or_congr Iff.rfl ⟨fun ⟨d, hd, e⟩ => ⟨d, hd, other d hd ▸ e⟩,
        fun ⟨d, hd, e⟩ => ⟨d, hd, (other d hd).symm ▸ e⟩⟩)

/-- Which cells one row hits. -/
theorem mem_rowCells {x0 y0 : Byte} {r : Nat} {row : Byte} {c : Fin 64 × Fin 32} :
    c ∈ rowCells x0 y0 r row ↔ ∃ k, k < 8 ∧ row.getLsbD (7 - k) = true ∧ c = cellOf x0 y0 r k := by
  have hcol : ∀ k, k ∈ columns ↔ k < 8 := fun k => by simp [columns]; omega
  simp only [rowCells, List.mem_filterMap, hcol]
  constructor
  · rintro ⟨k, hk, h⟩
    split at h
    · next hb => exact ⟨k, hk, hb, by simpa using h.symm⟩
    · simp at h
  · rintro ⟨k, hk, hb, rfl⟩
    exact ⟨k, hk, by simp [hb]⟩

/-- Which cells the rows from row `r` on hit. -/
theorem mem_spriteCells {x0 y0 : Byte} {r : Nat} {rows : List Byte} {c : Fin 64 × Fin 32} :
    c ∈ spriteCells x0 y0 r rows ↔
      ∃ j, ∃ h : j < rows.length, ∃ k, k < 8 ∧ rows[j].getLsbD (7 - k) = true ∧ c = cellOf x0 y0 (r + j) k := by
  induction rows generalizing r with
  | nil => simp [spriteCells]
  | cons row rows ih =>
    simp only [spriteCells, List.mem_append, mem_rowCells, ih]
    constructor
    · rintro (⟨k, hk, hb, e⟩ | ⟨j, hj, k, hk, hb, e⟩)
      · exact ⟨0, by simp, k, hk, by simpa using hb, by simpa using e⟩
      · exact ⟨j + 1, by simpa using hj, k, hk, by simpa using hb, by rw [e, Nat.add_assoc, Nat.add_comm 1]⟩
    · rintro ⟨j, hj, k, hk, hb, e⟩
      cases j with
      | zero => exact .inl ⟨k, hk, by simpa using hb, by simpa using e⟩
      | succ j =>
        exact .inr ⟨j, by simpa using hj, k, hk, by simpa using hb, by rw [e, Nat.add_assoc, Nat.add_comm 1]⟩

/-- Two bits of one row land on two columns (R173). -/
theorem cellOf_column_inj {x0 y0 : Byte} {r k k' : Nat} (hk : k < 8) (hk' : k' < 8)
    (h : (cellOf x0 y0 r k).1 = (cellOf x0 y0 r k').1) : k = k' := by
  have := congrArg Fin.val h
  simp only [cellOf, Fin.val_ofNat] at this
  omega

/-- Rows less than 32 apart land on two framebuffer rows (R173). -/
theorem cellOf_row_inj {x0 y0 : Byte} {r r' k k' : Nat} (hr : r < r' + 32) (hr' : r' < r + 32)
    (h : (cellOf x0 y0 r k).2 = (cellOf x0 y0 r' k').2) : r = r' := by
  have := congrArg Fin.val h
  simp only [cellOf, Fin.val_ofNat] at this
  omega

theorem nodup_rowCells (x0 y0 : Byte) (r : Nat) (row : Byte) : (rowCells x0 y0 r row).Nodup := by
  have cols : columns.Pairwise (fun k k' => k ≠ k' ∧ k < 8 ∧ k' < 8) := by decide
  refine cols.filterMap _ (fun k k' ⟨hne, hk, hk'⟩ c hc c' hc' e => ?_)
  split at hc <;> split at hc' <;> simp_all only [Option.some.injEq, reduceCtorEq]
  exact hne (cellOf_column_inj hk hk' (congrArg Prod.fst (hc.trans hc'.symm)))

/-- No cell is hit twice by one sprite (R173). -/
theorem nodup_spriteCells (x0 y0 : Byte) (r : Nat) (rows : List Byte) (h : rows.length ≤ 32) :
    (spriteCells x0 y0 r rows).Nodup := by
  induction rows generalizing r with
  | nil => exact List.nodup_nil
  | cons row rows ih =>
    simp only [List.length_cons] at h
    refine List.nodup_append.mpr ⟨nodup_rowCells x0 y0 r row, ih (r + 1) (by omega), fun c hc d hd e => ?_⟩
    obtain ⟨k, -, -, rfl⟩ := mem_rowCells.mp hc
    obtain ⟨j, hj, k', -, -, rfl⟩ := mem_spriteCells.mp hd
    have := cellOf_row_inj (by omega) (by omega) (congrArg Prod.snd e)
    omega

/-- The whole draw: each cell is toggled exactly when some set bit lands on it, and the collision is whether one of those
cells was set (R171, R173). -/
theorem drawSprite_spec (fb : Framebuffer) (x0 y0 : Byte) (rows : List Byte) (h : rows.length ≤ 32) :
    (∀ (x : Fin 64) (y : Fin 32), (drawSprite fb x0 y0 rows).1[x][y] =
      if (x, y) ∈ spriteCells x0 y0 0 rows then !fb[x][y] else fb[x][y]) ∧
    ((drawSprite fb x0 y0 rows).2 = true ↔ ∃ c ∈ spriteCells x0 y0 0 rows, fb[c.1][c.2] = true) := by
  have := foldl_flipCell (nodup_spriteCells x0 y0 0 rows h) (fb, false)
  simpa [drawSprite] using this

end Sys2Proof.Machine
end

