-- ==== Sys2Proof/Laws/Memory.lean ====
section
/-! SUPPORT. The laws of memory: a byte reads back as written, other addresses keep theirs, every operation keeps the
canonical form, and the form is unique. -/

namespace Sys2Proof.Machine

/-- The addresses of a cell list rise strictly. -/
abbrev Rising (cs : List Host.Cell) : Prop := cs.Pairwise (fun p q => p.1 < q.1)

theorem lookupCell_insertCell (a b : Nat) (v : Byte) (cs : List Host.Cell) :
    lookupCell b (insertCell a v cs) = if b = a then some v else lookupCell b cs := by
  induction cs with
  | nil => simp [insertCell, lookupCell, eq_comm]
  | cons c cs ih =>
    simp only [insertCell]
    split
    · simp [lookupCell, eq_comm]
    · split
      · next h => subst h; by_cases hb : b = c.1 <;> simp [lookupCell, hb, eq_comm]
      · next h1 h2 =>
        simp only [lookupCell, ih]
        by_cases hc : c.1 = b
        · have : b ≠ a := fun e => h2 (e ▸ hc.symm)
          simp [hc, this]
        · simp [hc]

theorem lookupCell_removeCell (a b : Nat) (cs : List Host.Cell) :
    lookupCell b (removeCell a cs) = if b = a then none else lookupCell b cs := by
  induction cs with
  | nil => simp [removeCell, lookupCell]
  | cons c cs ih =>
    simp only [removeCell]
    split
    · next hc =>
      by_cases hb : b = a
      · subst hb; simpa using ih
      · have : c.1 ≠ b := fun e => hb (e ▸ hc)
        simp [ih, hb, lookupCell, this]
    · next hc =>
      simp only [lookupCell, ih]
      by_cases hb : c.1 = b
      · have : b ≠ a := fun e => hc (e ▸ hb)
        simp [hb, this]
      · simp [hb]

theorem mem_insertCell {a : Nat} {v : Byte} {cs : List Host.Cell} {d : Host.Cell} (h : d ∈ insertCell a v cs) :
    d = (a, v) ∨ d ∈ cs := by
  induction cs with
  | nil => simpa [insertCell] using h
  | cons c cs ih =>
    simp only [insertCell] at h
    split at h
    · simpa using h
    · split at h
      · rcases List.mem_cons.mp h with h | h <;> simp [h]
      · rcases List.mem_cons.mp h with h | h
        · simp [h]
        · rcases ih h with h | h <;> simp [h]

theorem mem_of_mem_removeCell {a : Nat} {cs : List Host.Cell} {d : Host.Cell} (h : d ∈ removeCell a cs) : d ∈ cs := by
  induction cs with
  | nil => simp [removeCell] at h
  | cons c cs ih =>
    simp only [removeCell] at h
    split at h
    · simp [ih h]
    · rcases List.mem_cons.mp h with h | h <;> simp [h, ih]

theorem rising_insertCell {cs : List Host.Cell} (h : Rising cs) (a : Nat) (v : Byte) : Rising (insertCell a v cs) := by
  induction cs with
  | nil => simp [insertCell, Rising]
  | cons c cs ih =>
    obtain ⟨h1, h2⟩ := List.pairwise_cons.mp h
    simp only [insertCell]
    split
    · next hac =>
      refine List.pairwise_cons.mpr ⟨fun d hd => ?_, h⟩
      rcases List.mem_cons.mp hd with e | hd
      · exact e ▸ hac
      · exact Nat.lt_trans hac (h1 d hd)
    · split
      · next he => exact List.pairwise_cons.mpr ⟨fun d hd => he ▸ h1 d hd, h2⟩
      · next hlt hne =>
        refine List.pairwise_cons.mpr ⟨fun d hd => ?_, ih h2⟩
        rcases mem_insertCell hd with e | hd
        · subst e; simp only; omega
        · exact h1 d hd

theorem rising_removeCell {cs : List Host.Cell} (h : Rising cs) (a : Nat) : Rising (removeCell a cs) := by
  induction cs with
  | nil => simp [removeCell, Rising]
  | cons c cs ih =>
    obtain ⟨h1, h2⟩ := List.pairwise_cons.mp h
    simp only [removeCell]
    split
    · exact ih h2
    · exact List.pairwise_cons.mpr ⟨fun d hd => h1 d (mem_of_mem_removeCell hd), ih h2⟩

theorem lookupCell_mem {a : Nat} {v : Byte} {cs : List Host.Cell} (h : lookupCell a cs = some v) : (a, v) ∈ cs := by
  induction cs with
  | nil => simp [lookupCell] at h
  | cons c cs ih =>
    simp only [lookupCell] at h
    split at h
    · next hc => have : c = (a, v) := Prod.ext hc (by simpa using h)
                 simp [this]
    · simp [ih h]

theorem lookupCell_of_mem {a : Nat} {v : Byte} {cs : List Host.Cell} (hr : Rising cs) (h : (a, v) ∈ cs) :
    lookupCell a cs = some v := by
  induction cs with
  | nil => simp at h
  | cons c cs ih =>
    obtain ⟨h1, h2⟩ := List.pairwise_cons.mp hr
    rcases List.mem_cons.mp h with e | h
    · simp [lookupCell, ← e]
    · have := h1 _ h
      simp [lookupCell, Nat.ne_of_lt this, ih h2 h]

/-- A read after a write (20_memory R57). -/
theorem Memory.read_write (m : Memory) (a b : Nat) (v : Byte) :
    (m.write a v).read b = if b = a then v else m.read b := by
  unfold Memory.write
  split
  · next hv =>
    simp only [Memory.read, lookupCell_removeCell]
    split
    · next e => simp [e, hv]
    · rfl
  · simp only [Memory.read, lookupCell_insertCell]
    split
    · next e => simp
    · rfl

@[simp] theorem Memory.read_write_same (m : Memory) (a : Nat) (v : Byte) : (m.write a v).read a = v := by
  simp [Memory.read_write]

theorem Memory.read_write_ne (m : Memory) {a b : Nat} (v : Byte) (hb : b ≠ a) : (m.write a v).read b = m.read b := by
  simp [Memory.read_write, hb]

/-- A write inside the address space keeps the canonical form. -/
theorem Memory.wf_write {m : Memory} (h : m.wf) {a : Nat} (ha : a ≤ 4095) (v : Byte) : (m.write a v).wf := by
  unfold Memory.write
  split
  · exact ⟨rising_removeCell h.1 a, fun c hc => h.2 c (mem_of_mem_removeCell hc)⟩
  · next hv =>
    refine ⟨rising_insertCell h.1 a v, fun c hc => ?_⟩
    rcases mem_insertCell hc with e | hc
    · subst e; exact ⟨ha, hv⟩
    · exact h.2 c hc

/-- Canonical memories that read alike are equal. -/
theorem Memory.ext_read {m m' : Memory} (h : m.wf) (h' : m'.wf) (e : ∀ a, m.read a = m'.read a) : m = m' := by
  have look : ∀ {m m' : Memory}, m.wf → (∀ a, m.read a = m'.read a) →
      ∀ a v, lookupCell a m.cells = some v → lookupCell a m'.cells = some v := by
    intro m m' h e a v hv
    have hne := (h.2 _ (lookupCell_mem hv)).2
    have ha := e a
    simp only [Memory.read, hv, Option.getD_some] at ha
    cases hl : lookupCell a m'.cells with
    | none => simp [hl] at ha; exact absurd ha hne
    | some w => simp [hl] at ha; simp [ha]
  have sub : ∀ c, c ∈ m.cells ↔ c ∈ m'.cells := fun c =>
    ⟨fun hc => lookupCell_mem (look h e _ _ (lookupCell_of_mem h.1 hc)),
     fun hc => lookupCell_mem (look h' (fun a => (e a).symm) _ _ (lookupCell_of_mem h'.1 hc))⟩
  have nodup : ∀ {cs : List Host.Cell}, Rising cs → cs.Nodup := fun hr =>
    hr.imp (fun hlt e => absurd (e ▸ hlt) (Nat.lt_irrefl _))
  have perm := (List.perm_ext_iff_of_nodup (nodup h.1) (nodup h'.1)).mpr sub
  have := perm.eq_of_pairwise (fun a b _ _ hab hba => absurd (Nat.lt_trans hab hba) (Nat.lt_irrefl _)) h.1 h'.1
  cases m; cases m'; simp_all

/-! ### The memory primitives of 00_scope R9 -/

theorem memRead_ok {m : Memory} {a : Nat} (h : a ≤ 4095) : memRead m a = .ok (m.read a) := by
  simp [memRead, Config.memTop, Nat.not_lt.mpr h]

theorem memRead_error {m : Memory} {a : Nat} (h : 4095 < a) : memRead m a = .error (.memReadBounds a) := by
  simp [memRead, Config.memTop, h]

theorem memWrite_ok {m : Memory} {a : Nat} (b : Byte) (h : a ≤ 4095) : memWrite m a b = .ok (m.write a b) := by
  simp [memWrite, Config.memTop, Nat.not_lt.mpr h]

theorem memWrite_error {m : Memory} {a : Nat} (b : Byte) (h : 4095 < a) :
    memWrite m a b = .error (.memWriteBounds a) := by
  simp [memWrite, Config.memTop, h]

/-- All of `n` reads in range: the bytes, in ascending order. -/
theorem readBytes_ok {m : Memory} {a n : Nat} (h : n = 0 ∨ a + n ≤ 4096) :
    readBytes m a n = .ok ((List.range n).map (fun k => m.read (a + k))) := by
  induction n generalizing a with
  | zero => rfl
  | succ n ih =>
    have ha : a ≤ 4095 := by omega
    have := ih (a := a + 1) (by omega)
    simp [readBytes, memRead_ok ha, this, List.range_succ_eq_map, Nat.add_assoc, Nat.add_comm 1]

/-- Some read out of range: the lowest such address is the one reported (20_memory R54). -/
theorem readBytes_error {m : Memory} {a n : Nat} (h0 : n ≠ 0) (h : 4096 < a + n) :
    readBytes m a n = .error (.memReadBounds (max a 4096)) := by
  induction n generalizing a with
  | zero => exact absurd rfl h0
  | succ n ih =>
    by_cases ha : 4095 < a
    · have : max a 4096 = a := by omega
      simp [readBytes, memRead_error ha, this]
    · have e := ih (a := a + 1) (by omega) (by omega)
      have : max (a + 1) 4096 = max a 4096 := by omega
      simp [readBytes, memRead_ok (Nat.not_lt.mp ha), e, this]

/-- Whatever the reads answer, it is the bytes or MEM_READ_BOUNDS. -/
theorem readBytes_cases (m : Memory) (a n : Nat) :
    (∃ bs, readBytes m a n = .ok bs) ∨ ∃ b, readBytes m a n = .error (.memReadBounds b) := by
  by_cases h : n = 0 ∨ a + n ≤ 4096
  · exact .inl ⟨_, readBytes_ok h⟩
  · exact .inr ⟨_, readBytes_error (by omega) (by omega)⟩

/-- What a write of several bytes does: each lands at its address and every other address is unchanged. -/
theorem writeBytes_ok (m : Memory) {a : Nat} {bs : List Byte} (hr : a + bs.length ≤ 4096) :
    ∃ m', writeBytes m a bs = .ok m' ∧ (∀ k, ∀ hk : k < bs.length, m'.read (a + k) = bs[k]) ∧
      ∀ b, b < a ∨ a + bs.length ≤ b → m'.read b = m.read b := by
  induction bs generalizing m a with
  | nil => exact ⟨m, rfl, by simp, by simp⟩
  | cons v bs ih =>
    simp only [List.length_cons] at hr
    have ha : a ≤ 4095 := by omega
    obtain ⟨m', e, hin, hout⟩ := ih (m.write a v) (a := a + 1) (by omega)
    refine ⟨m', by simp [writeBytes, memWrite_ok v ha, e], fun k hk => ?_, fun b hb => ?_⟩
    · cases k with
      | zero => rw [Nat.add_zero, hout a (by omega)]; simp
      | succ k =>
        have hk' : k < bs.length := by simpa using hk
        have : a + (k + 1) = a + 1 + k := by omega
        rw [this, hin k hk']; simp
    · simp only [List.length_cons] at hb
      rw [hout b (by omega), Memory.read_write_ne _ v (by omega)]

/-- A write of several bytes that reaches above 4095 reports the lowest such address (20_memory R54). -/
theorem writeBytes_error {m : Memory} {a : Nat} {bs : List Byte} (h0 : bs ≠ []) (h : 4096 < a + bs.length) :
    writeBytes m a bs = .error (.memWriteBounds (max a 4096)) := by
  induction bs generalizing m a with
  | nil => exact absurd rfl h0
  | cons v bs ih =>
    simp only [List.length_cons] at h
    by_cases ha : 4095 < a
    · have : max a 4096 = a := by omega
      simp [writeBytes, memWrite_error v ha, this]
    · have hb : bs ≠ [] := by rintro rfl; simp at h; omega
      have e := ih (m := m.write a v) (a := a + 1) hb (by omega)
      have : max (a + 1) 4096 = max a 4096 := by omega
      simp [writeBytes, memWrite_ok v (Nat.not_lt.mp ha), e, this]

/-- Whatever the writes answer, it is a memory or MEM_WRITE_BOUNDS, and a canonical memory stays so. -/
theorem writeBytes_cases (m : Memory) (a : Nat) (bs : List Byte) :
    (∃ m', writeBytes m a bs = .ok m' ∧ (m.wf → m'.wf)) ∨ ∃ b, writeBytes m a bs = .error (.memWriteBounds b) := by
  induction bs generalizing m a with
  | nil => exact .inl ⟨m, rfl, id⟩
  | cons v bs ih =>
    by_cases ha : 4095 < a
    · exact .inr ⟨a, by simp [writeBytes, memWrite_error v ha]⟩
    · have ha' := Nat.not_lt.mp ha
      rcases ih (m.write a v) (a + 1) with ⟨m', e, hw⟩ | ⟨b, e⟩
      · exact .inl ⟨m', by simp [writeBytes, memWrite_ok v ha', e], fun h => hw (Memory.wf_write h ha' v)⟩
      · exact .inr ⟨b, by simp [writeBytes, memWrite_ok v ha', e]⟩

/-- What copying a program does: each byte lands at its address and every other address is unchanged. -/
theorem copyBytes_spec (m : Memory) (a : Nat) (bs : List Byte) :
    (∀ k, ∀ hk : k < bs.length, (copyBytes m a bs).read (a + k) = bs[k]) ∧
      ∀ b, b < a ∨ a + bs.length ≤ b → (copyBytes m a bs).read b = m.read b := by
  induction bs generalizing m a with
  | nil => exact ⟨by simp, by simp [copyBytes]⟩
  | cons v bs ih =>
    obtain ⟨hin, hout⟩ := ih (m.write a v) (a + 1)
    refine ⟨fun k hk => ?_, fun b hb => ?_⟩
    · cases k with
      | zero => rw [Nat.add_zero]; simp only [copyBytes]; rw [hout a (by omega)]; simp
      | succ k =>
        have hk' : k < bs.length := by simpa using hk
        have : a + (k + 1) = a + 1 + k := by omega
        rw [copyBytes, this, hin k hk']; simp
    · simp only [List.length_cons] at hb
      rw [copyBytes, hout b (by omega), Memory.read_write_ne _ v (by omega)]

/-- Copying a program inside the address space keeps the canonical form. -/
theorem copyBytes_wf {m : Memory} (h : m.wf) {a : Nat} {bs : List Byte} (hr : a + bs.length ≤ 4096) :
    (copyBytes m a bs).wf := by
  induction bs generalizing m a with
  | nil => exact h
  | cons v bs ih =>
    simp only [List.length_cons] at hr
    exact ih (Memory.wf_write h (a := a) (by omega) v) (by omega)

end Sys2Proof.Machine
end

