-- ==== Sys2Proof/Laws/State.lean ====
section
/-! SUPPORT. One lemma per field per update of State, so that no proof unfolds a record update, and the read of one
register after a write of one. -/

namespace Sys2Proof.Machine

/-! `State.setV` -/

@[simp] theorem State.setV_v (s : State) (x : Reg) (b : Byte) : (s.setV x b).v = s.v.set x b := rfl
@[simp] theorem State.setV_i (s : State) (x : Reg) (b : Byte) : (s.setV x b).i = s.i := rfl
@[simp] theorem State.setV_pc (s : State) (x : Reg) (b : Byte) : (s.setV x b).pc = s.pc := rfl
@[simp] theorem State.setV_sp (s : State) (x : Reg) (b : Byte) : (s.setV x b).sp = s.sp := rfl
@[simp] theorem State.setV_stack (s : State) (x : Reg) (b : Byte) : (s.setV x b).stack = s.stack := rfl
@[simp] theorem State.setV_dt (s : State) (x : Reg) (b : Byte) : (s.setV x b).dt = s.dt := rfl
@[simp] theorem State.setV_st (s : State) (x : Reg) (b : Byte) : (s.setV x b).st = s.st := rfl
@[simp] theorem State.setV_fb (s : State) (x : Reg) (b : Byte) : (s.setV x b).fb = s.fb := rfl
@[simp] theorem State.setV_keys (s : State) (x : Reg) (b : Byte) : (s.setV x b).keys = s.keys := rfl
@[simp] theorem State.setV_shouldRedraw (s : State) (x : Reg) (b : Byte) : (s.setV x b).shouldRedraw = s.shouldRedraw := rfl
@[simp] theorem State.setV_opcode (s : State) (x : Reg) (b : Byte) : (s.setV x b).opcode = s.opcode := rfl
@[simp] theorem State.setV_status (s : State) (x : Reg) (b : Byte) : (s.setV x b).status = s.status := rfl
@[simp] theorem State.setV_mem (s : State) (x : Reg) (b : Byte) : (s.setV x b).mem = s.mem := rfl
@[simp] theorem State.setV_draws (s : State) (x : Reg) (b : Byte) : (s.setV x b).draws = s.draws := rfl

/-! `State.setRegs` -/

@[simp] theorem State.setRegs_v (s : State) (v : Vector Byte 16) : (s.setRegs v).v = v := rfl
@[simp] theorem State.setRegs_i (s : State) (v : Vector Byte 16) : (s.setRegs v).i = s.i := rfl
@[simp] theorem State.setRegs_pc (s : State) (v : Vector Byte 16) : (s.setRegs v).pc = s.pc := rfl
@[simp] theorem State.setRegs_sp (s : State) (v : Vector Byte 16) : (s.setRegs v).sp = s.sp := rfl
@[simp] theorem State.setRegs_stack (s : State) (v : Vector Byte 16) : (s.setRegs v).stack = s.stack := rfl
@[simp] theorem State.setRegs_dt (s : State) (v : Vector Byte 16) : (s.setRegs v).dt = s.dt := rfl
@[simp] theorem State.setRegs_st (s : State) (v : Vector Byte 16) : (s.setRegs v).st = s.st := rfl
@[simp] theorem State.setRegs_fb (s : State) (v : Vector Byte 16) : (s.setRegs v).fb = s.fb := rfl
@[simp] theorem State.setRegs_keys (s : State) (v : Vector Byte 16) : (s.setRegs v).keys = s.keys := rfl
@[simp] theorem State.setRegs_shouldRedraw (s : State) (v : Vector Byte 16) : (s.setRegs v).shouldRedraw = s.shouldRedraw := rfl
@[simp] theorem State.setRegs_opcode (s : State) (v : Vector Byte 16) : (s.setRegs v).opcode = s.opcode := rfl
@[simp] theorem State.setRegs_status (s : State) (v : Vector Byte 16) : (s.setRegs v).status = s.status := rfl
@[simp] theorem State.setRegs_mem (s : State) (v : Vector Byte 16) : (s.setRegs v).mem = s.mem := rfl
@[simp] theorem State.setRegs_draws (s : State) (v : Vector Byte 16) : (s.setRegs v).draws = s.draws := rfl

/-! `State.setI` -/

@[simp] theorem State.setI_v (s : State) (w : Word) : (s.setI w).v = s.v := rfl
@[simp] theorem State.setI_i (s : State) (w : Word) : (s.setI w).i = w := rfl
@[simp] theorem State.setI_pc (s : State) (w : Word) : (s.setI w).pc = s.pc := rfl
@[simp] theorem State.setI_sp (s : State) (w : Word) : (s.setI w).sp = s.sp := rfl
@[simp] theorem State.setI_stack (s : State) (w : Word) : (s.setI w).stack = s.stack := rfl
@[simp] theorem State.setI_dt (s : State) (w : Word) : (s.setI w).dt = s.dt := rfl
@[simp] theorem State.setI_st (s : State) (w : Word) : (s.setI w).st = s.st := rfl
@[simp] theorem State.setI_fb (s : State) (w : Word) : (s.setI w).fb = s.fb := rfl
@[simp] theorem State.setI_keys (s : State) (w : Word) : (s.setI w).keys = s.keys := rfl
@[simp] theorem State.setI_shouldRedraw (s : State) (w : Word) : (s.setI w).shouldRedraw = s.shouldRedraw := rfl
@[simp] theorem State.setI_opcode (s : State) (w : Word) : (s.setI w).opcode = s.opcode := rfl
@[simp] theorem State.setI_status (s : State) (w : Word) : (s.setI w).status = s.status := rfl
@[simp] theorem State.setI_mem (s : State) (w : Word) : (s.setI w).mem = s.mem := rfl
@[simp] theorem State.setI_draws (s : State) (w : Word) : (s.setI w).draws = s.draws := rfl
@[simp] theorem State.setI_getV (s : State) (w : Word) (j : Reg) : (s.setI w).getV j = s.getV j := rfl

/-! `State.setPc` -/

@[simp] theorem State.setPc_v (s : State) (w : Word) : (s.setPc w).v = s.v := rfl
@[simp] theorem State.setPc_i (s : State) (w : Word) : (s.setPc w).i = s.i := rfl
@[simp] theorem State.setPc_pc (s : State) (w : Word) : (s.setPc w).pc = w := rfl
@[simp] theorem State.setPc_sp (s : State) (w : Word) : (s.setPc w).sp = s.sp := rfl
@[simp] theorem State.setPc_stack (s : State) (w : Word) : (s.setPc w).stack = s.stack := rfl
@[simp] theorem State.setPc_dt (s : State) (w : Word) : (s.setPc w).dt = s.dt := rfl
@[simp] theorem State.setPc_st (s : State) (w : Word) : (s.setPc w).st = s.st := rfl
@[simp] theorem State.setPc_fb (s : State) (w : Word) : (s.setPc w).fb = s.fb := rfl
@[simp] theorem State.setPc_keys (s : State) (w : Word) : (s.setPc w).keys = s.keys := rfl
@[simp] theorem State.setPc_shouldRedraw (s : State) (w : Word) : (s.setPc w).shouldRedraw = s.shouldRedraw := rfl
@[simp] theorem State.setPc_opcode (s : State) (w : Word) : (s.setPc w).opcode = s.opcode := rfl
@[simp] theorem State.setPc_status (s : State) (w : Word) : (s.setPc w).status = s.status := rfl
@[simp] theorem State.setPc_mem (s : State) (w : Word) : (s.setPc w).mem = s.mem := rfl
@[simp] theorem State.setPc_draws (s : State) (w : Word) : (s.setPc w).draws = s.draws := rfl
@[simp] theorem State.setPc_getV (s : State) (w : Word) (j : Reg) : (s.setPc w).getV j = s.getV j := rfl

/-! `State.setStack` -/

@[simp] theorem State.setStack_v (s : State) (stack : Vector Word 16) (sp : Fin 17) : (s.setStack stack sp).v = s.v := rfl
@[simp] theorem State.setStack_i (s : State) (stack : Vector Word 16) (sp : Fin 17) : (s.setStack stack sp).i = s.i := rfl
@[simp] theorem State.setStack_pc (s : State) (stack : Vector Word 16) (sp : Fin 17) : (s.setStack stack sp).pc = s.pc := rfl
@[simp] theorem State.setStack_sp (s : State) (stack : Vector Word 16) (sp : Fin 17) : (s.setStack stack sp).sp = sp := rfl
@[simp] theorem State.setStack_stack (s : State) (stack : Vector Word 16) (sp : Fin 17) : (s.setStack stack sp).stack = stack := rfl
@[simp] theorem State.setStack_dt (s : State) (stack : Vector Word 16) (sp : Fin 17) : (s.setStack stack sp).dt = s.dt := rfl
@[simp] theorem State.setStack_st (s : State) (stack : Vector Word 16) (sp : Fin 17) : (s.setStack stack sp).st = s.st := rfl
@[simp] theorem State.setStack_fb (s : State) (stack : Vector Word 16) (sp : Fin 17) : (s.setStack stack sp).fb = s.fb := rfl
@[simp] theorem State.setStack_keys (s : State) (stack : Vector Word 16) (sp : Fin 17) : (s.setStack stack sp).keys = s.keys := rfl
@[simp] theorem State.setStack_shouldRedraw (s : State) (stack : Vector Word 16) (sp : Fin 17) : (s.setStack stack sp).shouldRedraw = s.shouldRedraw := rfl
@[simp] theorem State.setStack_opcode (s : State) (stack : Vector Word 16) (sp : Fin 17) : (s.setStack stack sp).opcode = s.opcode := rfl
@[simp] theorem State.setStack_status (s : State) (stack : Vector Word 16) (sp : Fin 17) : (s.setStack stack sp).status = s.status := rfl
@[simp] theorem State.setStack_mem (s : State) (stack : Vector Word 16) (sp : Fin 17) : (s.setStack stack sp).mem = s.mem := rfl
@[simp] theorem State.setStack_draws (s : State) (stack : Vector Word 16) (sp : Fin 17) : (s.setStack stack sp).draws = s.draws := rfl
@[simp] theorem State.setStack_getV (s : State) (stack : Vector Word 16) (sp : Fin 17) (j : Reg) : (s.setStack stack sp).getV j = s.getV j := rfl

/-! `State.setDT` -/

@[simp] theorem State.setDT_v (s : State) (b : Byte) : (s.setDT b).v = s.v := rfl
@[simp] theorem State.setDT_i (s : State) (b : Byte) : (s.setDT b).i = s.i := rfl
@[simp] theorem State.setDT_pc (s : State) (b : Byte) : (s.setDT b).pc = s.pc := rfl
@[simp] theorem State.setDT_sp (s : State) (b : Byte) : (s.setDT b).sp = s.sp := rfl
@[simp] theorem State.setDT_stack (s : State) (b : Byte) : (s.setDT b).stack = s.stack := rfl
@[simp] theorem State.setDT_dt (s : State) (b : Byte) : (s.setDT b).dt = b := rfl
@[simp] theorem State.setDT_st (s : State) (b : Byte) : (s.setDT b).st = s.st := rfl
@[simp] theorem State.setDT_fb (s : State) (b : Byte) : (s.setDT b).fb = s.fb := rfl
@[simp] theorem State.setDT_keys (s : State) (b : Byte) : (s.setDT b).keys = s.keys := rfl
@[simp] theorem State.setDT_shouldRedraw (s : State) (b : Byte) : (s.setDT b).shouldRedraw = s.shouldRedraw := rfl
@[simp] theorem State.setDT_opcode (s : State) (b : Byte) : (s.setDT b).opcode = s.opcode := rfl
@[simp] theorem State.setDT_status (s : State) (b : Byte) : (s.setDT b).status = s.status := rfl
@[simp] theorem State.setDT_mem (s : State) (b : Byte) : (s.setDT b).mem = s.mem := rfl
@[simp] theorem State.setDT_draws (s : State) (b : Byte) : (s.setDT b).draws = s.draws := rfl
@[simp] theorem State.setDT_getV (s : State) (b : Byte) (j : Reg) : (s.setDT b).getV j = s.getV j := rfl

/-! `State.setST` -/

@[simp] theorem State.setST_v (s : State) (b : Byte) : (s.setST b).v = s.v := rfl
@[simp] theorem State.setST_i (s : State) (b : Byte) : (s.setST b).i = s.i := rfl
@[simp] theorem State.setST_pc (s : State) (b : Byte) : (s.setST b).pc = s.pc := rfl
@[simp] theorem State.setST_sp (s : State) (b : Byte) : (s.setST b).sp = s.sp := rfl
@[simp] theorem State.setST_stack (s : State) (b : Byte) : (s.setST b).stack = s.stack := rfl
@[simp] theorem State.setST_dt (s : State) (b : Byte) : (s.setST b).dt = s.dt := rfl
@[simp] theorem State.setST_st (s : State) (b : Byte) : (s.setST b).st = b := rfl
@[simp] theorem State.setST_fb (s : State) (b : Byte) : (s.setST b).fb = s.fb := rfl
@[simp] theorem State.setST_keys (s : State) (b : Byte) : (s.setST b).keys = s.keys := rfl
@[simp] theorem State.setST_shouldRedraw (s : State) (b : Byte) : (s.setST b).shouldRedraw = s.shouldRedraw := rfl
@[simp] theorem State.setST_opcode (s : State) (b : Byte) : (s.setST b).opcode = s.opcode := rfl
@[simp] theorem State.setST_status (s : State) (b : Byte) : (s.setST b).status = s.status := rfl
@[simp] theorem State.setST_mem (s : State) (b : Byte) : (s.setST b).mem = s.mem := rfl
@[simp] theorem State.setST_draws (s : State) (b : Byte) : (s.setST b).draws = s.draws := rfl
@[simp] theorem State.setST_getV (s : State) (b : Byte) (j : Reg) : (s.setST b).getV j = s.getV j := rfl

/-! `State.setFb` -/

@[simp] theorem State.setFb_v (s : State) (fb : Framebuffer) : (s.setFb fb).v = s.v := rfl
@[simp] theorem State.setFb_i (s : State) (fb : Framebuffer) : (s.setFb fb).i = s.i := rfl
@[simp] theorem State.setFb_pc (s : State) (fb : Framebuffer) : (s.setFb fb).pc = s.pc := rfl
@[simp] theorem State.setFb_sp (s : State) (fb : Framebuffer) : (s.setFb fb).sp = s.sp := rfl
@[simp] theorem State.setFb_stack (s : State) (fb : Framebuffer) : (s.setFb fb).stack = s.stack := rfl
@[simp] theorem State.setFb_dt (s : State) (fb : Framebuffer) : (s.setFb fb).dt = s.dt := rfl
@[simp] theorem State.setFb_st (s : State) (fb : Framebuffer) : (s.setFb fb).st = s.st := rfl
@[simp] theorem State.setFb_fb (s : State) (fb : Framebuffer) : (s.setFb fb).fb = fb := rfl
@[simp] theorem State.setFb_keys (s : State) (fb : Framebuffer) : (s.setFb fb).keys = s.keys := rfl
@[simp] theorem State.setFb_shouldRedraw (s : State) (fb : Framebuffer) : (s.setFb fb).shouldRedraw = s.shouldRedraw := rfl
@[simp] theorem State.setFb_opcode (s : State) (fb : Framebuffer) : (s.setFb fb).opcode = s.opcode := rfl
@[simp] theorem State.setFb_status (s : State) (fb : Framebuffer) : (s.setFb fb).status = s.status := rfl
@[simp] theorem State.setFb_mem (s : State) (fb : Framebuffer) : (s.setFb fb).mem = s.mem := rfl
@[simp] theorem State.setFb_draws (s : State) (fb : Framebuffer) : (s.setFb fb).draws = s.draws := rfl
@[simp] theorem State.setFb_getV (s : State) (fb : Framebuffer) (j : Reg) : (s.setFb fb).getV j = s.getV j := rfl

/-! `State.setKeys` -/

@[simp] theorem State.setKeys_v (s : State) (keys : Vector Bool 16) : (s.setKeys keys).v = s.v := rfl
@[simp] theorem State.setKeys_i (s : State) (keys : Vector Bool 16) : (s.setKeys keys).i = s.i := rfl
@[simp] theorem State.setKeys_pc (s : State) (keys : Vector Bool 16) : (s.setKeys keys).pc = s.pc := rfl
@[simp] theorem State.setKeys_sp (s : State) (keys : Vector Bool 16) : (s.setKeys keys).sp = s.sp := rfl
@[simp] theorem State.setKeys_stack (s : State) (keys : Vector Bool 16) : (s.setKeys keys).stack = s.stack := rfl
@[simp] theorem State.setKeys_dt (s : State) (keys : Vector Bool 16) : (s.setKeys keys).dt = s.dt := rfl
@[simp] theorem State.setKeys_st (s : State) (keys : Vector Bool 16) : (s.setKeys keys).st = s.st := rfl
@[simp] theorem State.setKeys_fb (s : State) (keys : Vector Bool 16) : (s.setKeys keys).fb = s.fb := rfl
@[simp] theorem State.setKeys_keys (s : State) (keys : Vector Bool 16) : (s.setKeys keys).keys = keys := rfl
@[simp] theorem State.setKeys_shouldRedraw (s : State) (keys : Vector Bool 16) : (s.setKeys keys).shouldRedraw = s.shouldRedraw := rfl
@[simp] theorem State.setKeys_opcode (s : State) (keys : Vector Bool 16) : (s.setKeys keys).opcode = s.opcode := rfl
@[simp] theorem State.setKeys_status (s : State) (keys : Vector Bool 16) : (s.setKeys keys).status = s.status := rfl
@[simp] theorem State.setKeys_mem (s : State) (keys : Vector Bool 16) : (s.setKeys keys).mem = s.mem := rfl
@[simp] theorem State.setKeys_draws (s : State) (keys : Vector Bool 16) : (s.setKeys keys).draws = s.draws := rfl
@[simp] theorem State.setKeys_getV (s : State) (keys : Vector Bool 16) (j : Reg) : (s.setKeys keys).getV j = s.getV j := rfl

/-! `State.setRedraw` -/

@[simp] theorem State.setRedraw_v (s : State) (b : Bool) : (s.setRedraw b).v = s.v := rfl
@[simp] theorem State.setRedraw_i (s : State) (b : Bool) : (s.setRedraw b).i = s.i := rfl
@[simp] theorem State.setRedraw_pc (s : State) (b : Bool) : (s.setRedraw b).pc = s.pc := rfl
@[simp] theorem State.setRedraw_sp (s : State) (b : Bool) : (s.setRedraw b).sp = s.sp := rfl
@[simp] theorem State.setRedraw_stack (s : State) (b : Bool) : (s.setRedraw b).stack = s.stack := rfl
@[simp] theorem State.setRedraw_dt (s : State) (b : Bool) : (s.setRedraw b).dt = s.dt := rfl
@[simp] theorem State.setRedraw_st (s : State) (b : Bool) : (s.setRedraw b).st = s.st := rfl
@[simp] theorem State.setRedraw_fb (s : State) (b : Bool) : (s.setRedraw b).fb = s.fb := rfl
@[simp] theorem State.setRedraw_keys (s : State) (b : Bool) : (s.setRedraw b).keys = s.keys := rfl
@[simp] theorem State.setRedraw_shouldRedraw (s : State) (b : Bool) : (s.setRedraw b).shouldRedraw = b := rfl
@[simp] theorem State.setRedraw_opcode (s : State) (b : Bool) : (s.setRedraw b).opcode = s.opcode := rfl
@[simp] theorem State.setRedraw_status (s : State) (b : Bool) : (s.setRedraw b).status = s.status := rfl
@[simp] theorem State.setRedraw_mem (s : State) (b : Bool) : (s.setRedraw b).mem = s.mem := rfl
@[simp] theorem State.setRedraw_draws (s : State) (b : Bool) : (s.setRedraw b).draws = s.draws := rfl
@[simp] theorem State.setRedraw_getV (s : State) (b : Bool) (j : Reg) : (s.setRedraw b).getV j = s.getV j := rfl

/-! `State.setOpcode` -/

@[simp] theorem State.setOpcode_v (s : State) (w : Word) : (s.setOpcode w).v = s.v := rfl
@[simp] theorem State.setOpcode_i (s : State) (w : Word) : (s.setOpcode w).i = s.i := rfl
@[simp] theorem State.setOpcode_pc (s : State) (w : Word) : (s.setOpcode w).pc = s.pc := rfl
@[simp] theorem State.setOpcode_sp (s : State) (w : Word) : (s.setOpcode w).sp = s.sp := rfl
@[simp] theorem State.setOpcode_stack (s : State) (w : Word) : (s.setOpcode w).stack = s.stack := rfl
@[simp] theorem State.setOpcode_dt (s : State) (w : Word) : (s.setOpcode w).dt = s.dt := rfl
@[simp] theorem State.setOpcode_st (s : State) (w : Word) : (s.setOpcode w).st = s.st := rfl
@[simp] theorem State.setOpcode_fb (s : State) (w : Word) : (s.setOpcode w).fb = s.fb := rfl
@[simp] theorem State.setOpcode_keys (s : State) (w : Word) : (s.setOpcode w).keys = s.keys := rfl
@[simp] theorem State.setOpcode_shouldRedraw (s : State) (w : Word) : (s.setOpcode w).shouldRedraw = s.shouldRedraw := rfl
@[simp] theorem State.setOpcode_opcode (s : State) (w : Word) : (s.setOpcode w).opcode = w := rfl
@[simp] theorem State.setOpcode_status (s : State) (w : Word) : (s.setOpcode w).status = s.status := rfl
@[simp] theorem State.setOpcode_mem (s : State) (w : Word) : (s.setOpcode w).mem = s.mem := rfl
@[simp] theorem State.setOpcode_draws (s : State) (w : Word) : (s.setOpcode w).draws = s.draws := rfl
@[simp] theorem State.setOpcode_getV (s : State) (w : Word) (j : Reg) : (s.setOpcode w).getV j = s.getV j := rfl

/-! `State.setStatus` -/

@[simp] theorem State.setStatus_v (s : State) (status : Status) : (s.setStatus status).v = s.v := rfl
@[simp] theorem State.setStatus_i (s : State) (status : Status) : (s.setStatus status).i = s.i := rfl
@[simp] theorem State.setStatus_pc (s : State) (status : Status) : (s.setStatus status).pc = s.pc := rfl
@[simp] theorem State.setStatus_sp (s : State) (status : Status) : (s.setStatus status).sp = s.sp := rfl
@[simp] theorem State.setStatus_stack (s : State) (status : Status) : (s.setStatus status).stack = s.stack := rfl
@[simp] theorem State.setStatus_dt (s : State) (status : Status) : (s.setStatus status).dt = s.dt := rfl
@[simp] theorem State.setStatus_st (s : State) (status : Status) : (s.setStatus status).st = s.st := rfl
@[simp] theorem State.setStatus_fb (s : State) (status : Status) : (s.setStatus status).fb = s.fb := rfl
@[simp] theorem State.setStatus_keys (s : State) (status : Status) : (s.setStatus status).keys = s.keys := rfl
@[simp] theorem State.setStatus_shouldRedraw (s : State) (status : Status) : (s.setStatus status).shouldRedraw = s.shouldRedraw := rfl
@[simp] theorem State.setStatus_opcode (s : State) (status : Status) : (s.setStatus status).opcode = s.opcode := rfl
@[simp] theorem State.setStatus_status (s : State) (status : Status) : (s.setStatus status).status = status := rfl
@[simp] theorem State.setStatus_mem (s : State) (status : Status) : (s.setStatus status).mem = s.mem := rfl
@[simp] theorem State.setStatus_draws (s : State) (status : Status) : (s.setStatus status).draws = s.draws := rfl
@[simp] theorem State.setStatus_getV (s : State) (status : Status) (j : Reg) : (s.setStatus status).getV j = s.getV j := rfl

/-! `State.setMem` -/

@[simp] theorem State.setMem_v (s : State) (m : Memory) : (s.setMem m).v = s.v := rfl
@[simp] theorem State.setMem_i (s : State) (m : Memory) : (s.setMem m).i = s.i := rfl
@[simp] theorem State.setMem_pc (s : State) (m : Memory) : (s.setMem m).pc = s.pc := rfl
@[simp] theorem State.setMem_sp (s : State) (m : Memory) : (s.setMem m).sp = s.sp := rfl
@[simp] theorem State.setMem_stack (s : State) (m : Memory) : (s.setMem m).stack = s.stack := rfl
@[simp] theorem State.setMem_dt (s : State) (m : Memory) : (s.setMem m).dt = s.dt := rfl
@[simp] theorem State.setMem_st (s : State) (m : Memory) : (s.setMem m).st = s.st := rfl
@[simp] theorem State.setMem_fb (s : State) (m : Memory) : (s.setMem m).fb = s.fb := rfl
@[simp] theorem State.setMem_keys (s : State) (m : Memory) : (s.setMem m).keys = s.keys := rfl
@[simp] theorem State.setMem_shouldRedraw (s : State) (m : Memory) : (s.setMem m).shouldRedraw = s.shouldRedraw := rfl
@[simp] theorem State.setMem_opcode (s : State) (m : Memory) : (s.setMem m).opcode = s.opcode := rfl
@[simp] theorem State.setMem_status (s : State) (m : Memory) : (s.setMem m).status = s.status := rfl
@[simp] theorem State.setMem_mem (s : State) (m : Memory) : (s.setMem m).mem = m := rfl
@[simp] theorem State.setMem_draws (s : State) (m : Memory) : (s.setMem m).draws = s.draws := rfl
@[simp] theorem State.setMem_getV (s : State) (m : Memory) (j : Reg) : (s.setMem m).getV j = s.getV j := rfl

/-! `State.setDraws` -/

@[simp] theorem State.setDraws_v (s : State) (n : Nat) : (s.setDraws n).v = s.v := rfl
@[simp] theorem State.setDraws_i (s : State) (n : Nat) : (s.setDraws n).i = s.i := rfl
@[simp] theorem State.setDraws_pc (s : State) (n : Nat) : (s.setDraws n).pc = s.pc := rfl
@[simp] theorem State.setDraws_sp (s : State) (n : Nat) : (s.setDraws n).sp = s.sp := rfl
@[simp] theorem State.setDraws_stack (s : State) (n : Nat) : (s.setDraws n).stack = s.stack := rfl
@[simp] theorem State.setDraws_dt (s : State) (n : Nat) : (s.setDraws n).dt = s.dt := rfl
@[simp] theorem State.setDraws_st (s : State) (n : Nat) : (s.setDraws n).st = s.st := rfl
@[simp] theorem State.setDraws_fb (s : State) (n : Nat) : (s.setDraws n).fb = s.fb := rfl
@[simp] theorem State.setDraws_keys (s : State) (n : Nat) : (s.setDraws n).keys = s.keys := rfl
@[simp] theorem State.setDraws_shouldRedraw (s : State) (n : Nat) : (s.setDraws n).shouldRedraw = s.shouldRedraw := rfl
@[simp] theorem State.setDraws_opcode (s : State) (n : Nat) : (s.setDraws n).opcode = s.opcode := rfl
@[simp] theorem State.setDraws_status (s : State) (n : Nat) : (s.setDraws n).status = s.status := rfl
@[simp] theorem State.setDraws_mem (s : State) (n : Nat) : (s.setDraws n).mem = s.mem := rfl
@[simp] theorem State.setDraws_draws (s : State) (n : Nat) : (s.setDraws n).draws = n := rfl
@[simp] theorem State.setDraws_getV (s : State) (n : Nat) (j : Reg) : (s.setDraws n).getV j = s.getV j := rfl

/-! Reading a register -/

/-- The two spellings of `V[x]`. -/
theorem State.getV_eq (s : State) (x : Reg) : s.getV x = s.v[x] := rfl

@[simp] theorem State.getV_setV_same (s : State) (x : Reg) (b : Byte) : (s.setV x b).getV x = b := by
  simp [State.getV, State.setV]

theorem State.getV_setV_ne (s : State) {x j : Reg} (b : Byte) (h : j ≠ x) : (s.setV x b).getV j = s.getV j := by
  have : (x : Nat) ≠ j := fun e => h (Fin.ext e.symm)
  simp [State.getV, State.setV, Vector.getElem_set_ne, this]

theorem State.getV_setV (s : State) (x j : Reg) (b : Byte) :
    (s.setV x b).getV j = if j = x then b else s.getV j := by
  split
  · next h => simp [h]
  · next h => exact State.getV_setV_ne s b h

end Sys2Proof.Machine
end

