-- ==== Sys2Proof/Laws/Ops.lean ====
section
/-! SUPPORT. What each shared operation can do, said once: flags, stack, keys, register loads, taking a fault, the end of
an execute step, PcUpdate and the tick. -/

namespace Sys2Proof.Machine

/-! ### Flags -/

@[simp] theorem flagOf_true : flagOf true = 1 := rfl
@[simp] theorem flagOf_false : flagOf false = 0 := rfl

theorem flagOf_toNat (c : Bool) : (flagOf c).toNat = if c then 1 else 0 := by cases c <;> rfl

theorem flagOf_decide (p : Prop) [Decidable p] : flagOf (decide p) = if p then 1 else 0 := by
  by_cases h : p <;> simp [h]

/-- The bit 8XY6 shifts out, as a number. -/
theorem lowBitFlag_toNat (a : Byte) : (lowBitFlag a).toNat = a.toNat % 2 := by
  rw [lowBitFlag, flagOf_toNat, BitVec.getLsbD, Nat.testBit_zero]
  have := Nat.mod_two_eq_zero_or_one a.toNat
  rcases this with h | h <;> simp [h]

/-- The bit 8XYE shifts out, as a number. -/
theorem highBitFlag_toNat (a : Byte) : (highBitFlag a).toNat = a.toNat / 128 := by
  rw [highBitFlag, flagOf_toNat, BitVec.getLsbD, Nat.testBit, Nat.shiftRight_eq_div_pow]
  have ha := a.isLt
  have : a.toNat / 128 = 0 ∨ a.toNat / 128 = 1 := by omega
  rcases this with h | h <;> simp [h]

/-! ### Truncation and widening (00_scope R7) -/

@[simp] theorem trunc8_toNat (n : Nat) : (trunc8 n).toNat = n % 256 := by simp [trunc8]

@[simp] theorem trunc16_toNat (n : Nat) : (trunc16 n).toNat = n % 65536 := by simp [trunc16]

@[simp] theorem zextAddr_toNat (nnn : Addr) : (zextAddr nnn).toNat = nnn.toNat := by
  have := nnn.isLt
  simp only [zextAddr, BitVec.toNat_setWidth]; omega

@[simp] theorem zextByte_toNat (b : Byte) : (zextByte b).toNat = b.toNat := by
  have := b.isLt
  simp only [zextByte, BitVec.toNat_setWidth]; omega

/-! ### Call stack (00_scope R13) -/

/-- A push with room: the entry at `sp`, then `sp + 1`. -/
theorem push_ok {s : State} (w : Word) (h : s.sp.val < 16) :
    push w s = .ok (s.setStack (s.stack.set s.sp.val w h) ⟨s.sp.val + 1, Nat.succ_lt_succ h⟩) := by
  simp [push, h]

theorem push_error {s : State} (w : Word) (h : s.sp.val = 16) : push w s = .error (.stackOverflow 16) := by
  simp [push, h]

/-- A pop with an entry in use: the entry below `sp`, then `sp - 1`; the slots keep their values. -/
theorem pop_ok {s : State} (j : Fin 16) (h : s.sp.val = j.val + 1) :
    pop s = .ok (s.stack[j], s.setStack s.stack ⟨j.val, by omega⟩) := by
  obtain ⟨j, hj⟩ := j
  have : s.sp = ⟨j + 1, by omega⟩ := Fin.ext h
  simp [pop, this]

theorem pop_error {s : State} (h : s.sp.val = 0) : pop s = .error (.stackUnderflow 0) := by
  have : s.sp = ⟨0, by omega⟩ := Fin.ext h
  simp [pop, this]

/-- `sp` is 0 or one above some slot. -/
theorem sp_cases (s : State) : s.sp.val = 0 ∨ ∃ j : Fin 16, s.sp.val = j.val + 1 := by
  rcases Nat.eq_zero_or_pos s.sp.val with h | h
  · exact .inl h
  · exact .inr ⟨⟨s.sp.val - 1, by omega⟩, by simp; omega⟩

/-! ### Keys (44_keys_timers) -/

theorem keyDown_ok {s : State} {b : Byte} (k : Fin 16) (h : b.toNat = k.val) : keyDown s b = .ok s.keys[k] := by
  have hk := k.isLt
  have : b.toNat < 16 := h ▸ hk
  simp [keyDown, h]

theorem keyDown_error {s : State} {b : Byte} (h : 15 < b.toNat) : keyDown s b = .error (.keyIndex b) := by
  simp [keyDown, Nat.not_lt.mpr h]

/-- A register's value is some key number or above 15. -/
theorem key_cases (b : Byte) : (∃ k : Fin 16, b.toNat = k.val) ∨ 15 < b.toNat := by
  by_cases h : b.toNat < 16
  · exact .inl ⟨⟨_, h⟩, rfl⟩
  · exact .inr (by omega)

theorem mem_keyOrder (k : Fin 16) : k ∈ keyOrder := by revert k; decide

/-- FX0A finds the lowest pressed key (R193). -/
theorem lowestKey_some {keys : Vector Bool 16} {k : Fin 16} (h : keys[k] = true)
    (low : ∀ j : Fin 16, j < k → keys[j] = false) : lowestKey keys = some k := by
  have sorted : keyOrder.Pairwise (· < ·) := by decide
  rw [lowestKey, List.find?_eq_some_iff_append]
  obtain ⟨as, bs, e⟩ := List.append_of_mem (mem_keyOrder k)
  refine ⟨h, as, bs, e, fun j hj => ?_⟩
  rw [e, List.pairwise_append] at sorted
  simp [low j (sorted.2.2 j hj k (by simp))]

theorem lowestKey_none {keys : Vector Bool 16} (h : ∀ k : Fin 16, keys[k] = false) : lowestKey keys = none := by
  rw [lowestKey, List.find?_eq_none]; intro k _; simp [h k]

theorem lowestKey_pressed {keys : Vector Bool 16} {k : Fin 16} (h : lowestKey keys = some k) : keys[k] = true := by
  simpa using List.find?_some h

theorem lowestKey_released {keys : Vector Bool 16} (h : lowestKey keys = none) (k : Fin 16) : keys[k] = false := by
  have := List.find?_eq_none.mp h k (mem_keyOrder k)
  simpa using this

/-! ### Loading registers from a list of bytes (42_index_memory R155) -/

/-- `loadRegs v j bs` puts `bs[k]` into register `j + k` and leaves the others. -/
theorem loadRegs_get (v : Vector Byte 16) (j : Nat) (bs : List Byte) (r : Reg) :
    (loadRegs v j bs)[r] = if h : j ≤ r.val ∧ r.val < j + bs.length then bs[r.val - j] else v[r] := by
  induction bs generalizing v j with
  | nil => simp [loadRegs]
  | cons b bs ih =>
    rw [loadRegs, ih]
    by_cases h1 : j + 1 ≤ r.val ∧ r.val < j + 1 + bs.length
    · have h2 : j ≤ r.val ∧ r.val < j + (b :: bs).length := by simp; omega
      have h3 : r.val - j = (r.val - (j + 1)) + 1 := by omega
      simp only [h1, h2, and_self, dite_true, h3, List.getElem_cons_succ]
    · rw [dif_neg h1]
      by_cases h2 : j = r.val
      · have h3 : j ≤ r.val ∧ r.val < j + (b :: bs).length := by simp; omega
        rw [dif_pos h3]
        simp [h2]
      · have h3 : ¬ (j ≤ r.val ∧ r.val < j + (b :: bs).length) := by simp; omega
        rw [dif_neg h3]
        simp [h2]

/-! ### The bytes FX55 stores (R154) -/

@[simp] theorem State.length_regsUpTo (s : State) (x : Reg) : (s.regsUpTo x).length = x.val + 1 := by
  have := x.isLt
  simp [State.regsUpTo]

theorem State.getElem_regsUpTo (s : State) (x j : Reg) (h : j.val < (s.regsUpTo x).length) :
    (s.regsUpTo x)[j.val] = s.v[j] := by
  simp [State.regsUpTo]

/-! ### Faults and the end of an execute step (60_exceptions R213, 00_scope R10) -/

@[simp] theorem raiseFault_status (o : Option Word) (c : FaultCause) (s : State) :
    (raiseFault o c s).status = .halted ⟨s.pc, o, c⟩ := rfl

/-- Taking a fault writes the status alone. -/
theorem raiseFault_eq (o : Option Word) (c : FaultCause) (s : State) :
    raiseFault o c s = { s with status := .halted ⟨s.pc, o, c⟩ } := rfl

@[simp] theorem commit_ok (s t : State) : commit s (.ok t) = .next t := rfl

@[simp] theorem commit_error (s : State) (c : FaultCause) :
    commit s (.error c) = .next (raiseFault (some s.opcode) c s) := rfl

/-! ### PcUpdate and the tick (30_encoding R83, 60_exceptions R220) -/

theorem pcUpdate_normal {i : Instr} (h : pcClass i = .normal) (s : State) : pcUpdate i s = s.setPc (s.pc + 2) := by
  simp [pcUpdate, h]

theorem pcUpdate_other {i : Instr} (h : pcClass i ≠ .normal) (s : State) : pcUpdate i s = s := by
  unfold pcUpdate; split <;> first | rfl | (next e => exact absurd e h)

/-- PcUpdate writes `pc` alone. -/
theorem pcUpdate_eq (i : Instr) (s : State) : pcUpdate i s = s.setPc (pcUpdate i s).pc := by
  by_cases h : pcClass i = .normal
  · rw [pcUpdate_normal h]; rfl
  · rw [pcUpdate_other h]; rfl

/-- A tick takes one away, stopping at 0. -/
theorem tickDown_toNat (b : Byte) : (tickDown b).toNat = b.toNat - 1 := by
  unfold tickDown
  split
  · next h => subst h; rfl
  · next h =>
    have h0 : b.toNat ≠ 0 := fun e => h (BitVec.eq_of_toNat_eq (by simpa using e))
    have h1 : (1 : Byte).toNat = 1 := rfl
    rw [BitVec.toNat_sub_of_le (BitVec.le_def.mpr (by omega)), h1]

@[simp] theorem timerTick_dt (s : State) : (timerTick s).dt = tickDown s.dt := rfl
@[simp] theorem timerTick_st (s : State) : (timerTick s).st = tickDown s.st := rfl

/-- The tick writes the timers alone. -/
theorem timerTick_eq (s : State) : timerTick s = { s with dt := tickDown s.dt, st := tickDown s.st } := rfl

theorem completeCycle_running {i : Instr} {t : State} (h : t.status = .running) :
    completeCycle i (.next t) = .next (timerTick (pcUpdate i t)) := by
  simp [completeCycle, h]

theorem completeCycle_halted {i : Instr} {t : State} {r : FaultRecord} (h : t.status = .halted r) :
    completeCycle i (.next t) = .next t := by
  simp [completeCycle, h]

/-! ### Fetch (30_encoding R81) -/

theorem fetch16_ok {m : Memory} {pc : Word} (h : pc.toNat ≤ 4094) :
    fetch16 m pc = .ok (wordOfBytes (m.read pc.toNat) (m.read (pc.toNat + 1))) := by
  simp [fetch16, Nat.not_lt.mpr h]

theorem fetch16_error {m : Memory} {pc : Word} (h : 4094 < pc.toNat) : fetch16 m pc = .error (.fetchBounds pc) := by
  simp [fetch16, h]

/-- A fetch that answers a word passed its bounds check. -/
theorem fetch16_bound {m : Memory} {pc w : Word} (h : fetch16 m pc = .ok w) : pc.toNat ≤ 4094 := by
  by_contra hc
  rw [fetch16_error (by omega)] at h
  simp at h

end Sys2Proof.Machine
end

