-- ==== Sys2Proof/Laws/Exec.lean ====
section
/-! SUPPORT. What the execute step of each instruction that can raise answers, on the operands that let it complete and
on those that make it raise; the other instructions' meanings are equations already. -/

namespace Sys2Proof.Machine

/-! ### 00EE and 2NNN (40_control_flow R100, R102) -/

theorem exec_ret_ok {s : State} (j : Fin 16) (h : s.sp.val = j.val + 1) :
    exec .ret s = .next ((s.setStack s.stack ⟨j.val, by omega⟩).setPc s.stack[j]) := by
  simp [exec, execRet, pop_ok j h]

theorem exec_ret_error {s : State} (h : s.sp.val = 0) :
    exec .ret s = .next (raiseFault (some s.opcode) (.stackUnderflow 0) s) := by
  simp [exec, execRet, pop_error h]

theorem exec_ret_cases (s : State) :
    (∃ j : Fin 16, ∃ _ : s.sp.val = j.val + 1,
      exec .ret s = .next ((s.setStack s.stack ⟨j.val, by omega⟩).setPc s.stack[j])) ∨
    (s.sp.val = 0 ∧ exec .ret s = .next (raiseFault (some s.opcode) (.stackUnderflow 0) s)) := by
  rcases sp_cases s with h | ⟨j, h⟩
  · exact .inr ⟨h, exec_ret_error h⟩
  · exact .inl ⟨j, h, exec_ret_ok j h⟩

theorem exec_call_ok {s : State} (nnn : Addr) (h : s.sp.val < 16) :
    exec (.call nnn) s = .next ((s.setStack (s.stack.set s.sp.val s.pc h)
      ⟨s.sp.val + 1, Nat.succ_lt_succ h⟩).setPc (zextAddr nnn)) := by
  simp [exec, execCall, push_ok s.pc h]

theorem exec_call_error {s : State} (nnn : Addr) (h : s.sp.val = 16) :
    exec (.call nnn) s = .next (raiseFault (some s.opcode) (.stackOverflow 16) s) := by
  simp [exec, execCall, push_error s.pc h]

theorem exec_call_cases (nnn : Addr) (s : State) :
    (∃ h : s.sp.val < 16, exec (.call nnn) s = .next ((s.setStack (s.stack.set s.sp.val s.pc h)
      ⟨s.sp.val + 1, Nat.succ_lt_succ h⟩).setPc (zextAddr nnn))) ∨
    (s.sp.val = 16 ∧ exec (.call nnn) s = .next (raiseFault (some s.opcode) (.stackOverflow 16) s)) := by
  by_cases h : s.sp.val < 16
  · exact .inl ⟨h, exec_call_ok nnn h⟩
  · have : s.sp.val = 16 := by have := s.sp.isLt; omega
    exact .inr ⟨this, exec_call_error nnn this⟩

/-! ### EX9E and EXA1 (44_keys_timers R190, R191) -/

theorem exec_skp_ok {s : State} {x : Reg} (k : Fin 16) (h : (s.getV x).toNat = k.val) :
    exec (.skp x) s = .next (skipIf s.keys[k] s) := by
  simp [exec, execSkp, keyDown_ok k h]

theorem exec_skp_error {s : State} {x : Reg} (h : 15 < (s.getV x).toNat) :
    exec (.skp x) s = .next (raiseFault (some s.opcode) (.keyIndex (s.getV x)) s) := by
  simp [exec, execSkp, keyDown_error h]

theorem exec_sknp_ok {s : State} {x : Reg} (k : Fin 16) (h : (s.getV x).toNat = k.val) :
    exec (.sknp x) s = .next (skipIf (!s.keys[k]) s) := by
  simp [exec, execSknp, keyDown_ok k h]

theorem exec_sknp_error {s : State} {x : Reg} (h : 15 < (s.getV x).toNat) :
    exec (.sknp x) s = .next (raiseFault (some s.opcode) (.keyIndex (s.getV x)) s) := by
  simp [exec, execSknp, keyDown_error h]

theorem exec_skp_cases (x : Reg) (s : State) :
    (∃ c, exec (.skp x) s = .next (skipIf c s)) ∨
    exec (.skp x) s = .next (raiseFault (some s.opcode) (.keyIndex (s.getV x)) s) := by
  rcases key_cases (s.getV x) with ⟨k, h⟩ | h
  · exact .inl ⟨_, exec_skp_ok k h⟩
  · exact .inr (exec_skp_error h)

theorem exec_sknp_cases (x : Reg) (s : State) :
    (∃ c, exec (.sknp x) s = .next (skipIf c s)) ∨
    exec (.sknp x) s = .next (raiseFault (some s.opcode) (.keyIndex (s.getV x)) s) := by
  rcases key_cases (s.getV x) with ⟨k, h⟩ | h
  · exact .inl ⟨_, exec_sknp_ok k h⟩
  · exact .inr (exec_sknp_error h)

/-! ### DXYN (43_display R171) -/

/-- The rows a DXYN reads when all of them are in range. -/
def spriteRows (s : State) (n : Nibble) : List Byte := (List.range n.toNat).map (fun k => s.mem.read (s.i.toNat + k))

@[simp] theorem length_spriteRows (s : State) (n : Nibble) : (spriteRows s n).length = n.toNat := by simp [spriteRows]

theorem exec_drw_ok {s : State} (x y : Reg) {n : Nibble} (h : n.toNat = 0 ∨ s.i.toNat + n.toNat ≤ 4096) :
    exec (.drw x y n) s = .next (showSprite (drawSprite s.fb (s.getV x) (s.getV y) (spriteRows s n)) s) := by
  simp [exec, execDrw, State.addrI, readBytes_ok h, spriteRows]

theorem exec_drw_error {s : State} (x y : Reg) {n : Nibble} (h0 : n.toNat ≠ 0) (h : 4096 < s.i.toNat + n.toNat) :
    exec (.drw x y n) s = .next (raiseFault (some s.opcode) (.memReadBounds (max s.i.toNat 4096)) s) := by
  simp [exec, execDrw, State.addrI, readBytes_error h0 h]

theorem exec_drw_cases (x y : Reg) (n : Nibble) (s : State) :
    (∃ p, exec (.drw x y n) s = .next (showSprite p s)) ∨
    ∃ a, exec (.drw x y n) s = .next (raiseFault (some s.opcode) (.memReadBounds a) s) := by
  by_cases h : n.toNat = 0 ∨ s.i.toNat + n.toNat ≤ 4096
  · exact .inl ⟨_, exec_drw_ok x y h⟩
  · exact .inr ⟨_, exec_drw_error x y (by omega) (by omega)⟩

/-! ### FX33, FX55 and FX65 (42_index_memory R153 to R155) -/

theorem exec_ldB_cases (x : Reg) (s : State) :
    (∃ m, (s.mem.wf → m.wf) ∧ exec (.ldB x) s = .next (s.setMem m)) ∨
    ∃ a, exec (.ldB x) s = .next (raiseFault (some s.opcode) (.memWriteBounds a) s) := by
  rcases writeBytes_cases s.mem (s.addrI 0) (decimalDigits (s.getV x)) with ⟨m, e, hw⟩ | ⟨a, e⟩
  · exact .inl ⟨m, hw, by simp [exec, execLdB, e]⟩
  · exact .inr ⟨a, by simp [exec, execLdB, e]⟩

theorem exec_ldMemVx_cases (x : Reg) (s : State) :
    (∃ m, (s.mem.wf → m.wf) ∧ exec (.ldMemVx x) s = .next (advanceI x (s.setMem m))) ∨
    ∃ a, exec (.ldMemVx x) s = .next (raiseFault (some s.opcode) (.memWriteBounds a) s) := by
  rcases writeBytes_cases s.mem (s.addrI 0) (s.regsUpTo x) with ⟨m, e, hw⟩ | ⟨a, e⟩
  · exact .inl ⟨m, hw, by simp [exec, execLdMemVx, e]⟩
  · exact .inr ⟨a, by simp [exec, execLdMemVx, e]⟩

theorem exec_ldVxMem_ok {s : State} {x : Reg} (h : s.i.toNat + x.val ≤ 4095) :
    exec (.ldVxMem x) s = .next (advanceI x (s.setRegs
      (loadRegs s.v 0 ((List.range (x.val + 1)).map (fun k => s.mem.read (s.i.toNat + k)))))) := by
  have := readBytes_ok (m := s.mem) (a := s.i.toNat) (n := x.val + 1) (by omega)
  simp [exec, execLdVxMem, State.addrI, this]

theorem exec_ldVxMem_error {s : State} {x : Reg} (h : 4095 < s.i.toNat + x.val) :
    exec (.ldVxMem x) s = .next (raiseFault (some s.opcode) (.memReadBounds (max s.i.toNat 4096)) s) := by
  have := readBytes_error (m := s.mem) (a := s.i.toNat) (n := x.val + 1) (by omega) (by omega)
  simp [exec, execLdVxMem, State.addrI, this]

/-- FX65 as one of its two outcomes, the loaded registers above `X` untouched. -/
theorem exec_ldVxMem_cases (x : Reg) (s : State) :
    (∃ bs : List Byte, bs.length = x.val + 1 ∧
      exec (.ldVxMem x) s = .next (advanceI x (s.setRegs (loadRegs s.v 0 bs)))) ∨
    ∃ a, exec (.ldVxMem x) s = .next (raiseFault (some s.opcode) (.memReadBounds a) s) := by
  by_cases h : s.i.toNat + x.val ≤ 4095
  · exact .inl ⟨_, by simp, exec_ldVxMem_ok h⟩
  · exact .inr ⟨_, exec_ldVxMem_error (by omega)⟩

/-! ### Every instruction -/

/-- An execute step leaves the status alone or raises and writes nothing else. -/
theorem exec_status {i : Instr} {s t : State} (h : exec i s = .next t) :
    t.status = s.status ∨ ∃ c, t = raiseFault (some s.opcode) c s := by
  cases i
  case ret => rcases exec_ret_cases s with ⟨j, hj, e⟩ | ⟨_, e⟩ <;> (rw [e] at h; cases h; first | exact .inr ⟨_, rfl⟩ | simp)
  case call nnn => rcases exec_call_cases nnn s with ⟨j, e⟩ | ⟨_, e⟩ <;> (rw [e] at h; cases h; first | exact .inr ⟨_, rfl⟩ | simp)
  case skp x => rcases exec_skp_cases x s with ⟨j, e⟩ | e <;> (rw [e] at h; cases h; first | exact .inr ⟨_, rfl⟩ | simp [skipIf])
  case sknp x => rcases exec_sknp_cases x s with ⟨j, e⟩ | e <;> (rw [e] at h; cases h; first | exact .inr ⟨_, rfl⟩ | simp [skipIf])
  case drw x y n => rcases exec_drw_cases x y n s with ⟨j, e⟩ | ⟨_, e⟩ <;> (rw [e] at h; cases h; first | exact .inr ⟨_, rfl⟩ | simp [showSprite])
  case ldB x => rcases exec_ldB_cases x s with ⟨j, _, e⟩ | ⟨_, e⟩ <;> (rw [e] at h; cases h; first | exact .inr ⟨_, rfl⟩ | simp)
  case ldMemVx x => rcases exec_ldMemVx_cases x s with ⟨j, _, e⟩ | ⟨_, e⟩ <;> (rw [e] at h; cases h; first | exact .inr ⟨_, rfl⟩ | simp [advanceI])
  case ldVxMem x => rcases exec_ldVxMem_cases x s with ⟨j, _, e⟩ | ⟨_, e⟩ <;> (rw [e] at h; cases h; first | exact .inr ⟨_, rfl⟩ | simp [advanceI])
  case ldVxK x => simp only [exec, execLdVxK] at h; cases h; split <;> simp
  all_goals (cases h; simp [skipIf, addInto, resultThenFlag, randomInto, addIntoI])

end Sys2Proof.Machine
end

