-- ==== Sys2Proof/Laws/Step.lean ====
section
/-! SUPPORT. What one cycle can do, said once (30_encoding R80, 60_exceptions R215). -/

namespace Sys2Proof.Machine

theorem step_halted {s : State} {r : FaultRecord} (h : s.status = .halted r) : step s = .fault (.halted r) := by
  simp [step, h]

theorem step_fetch_error {s : State} {c : FaultCause} (hs : s.status = .running) (hf : fetch16 s.mem s.pc = .error c) :
    step s = .next (raiseFault none c s) := by
  simp [step, hs, hf]

theorem step_decode_error {s : State} {w : Word} {e : DecodeError} (hs : s.status = .running)
    (hf : fetch16 s.mem s.pc = .ok w) (hd : decode w = .error e) :
    step s = .next (raiseFault (some w) (causeOfDecodeError e) (s.setOpcode w)) := by
  simp [step, hs, hf, hd]

theorem step_exec {s : State} {w : Word} {i : Instr} (hs : s.status = .running)
    (hf : fetch16 s.mem s.pc = .ok w) (hd : decode w = .ok i) :
    step s = completeCycle i (exec i (s.setOpcode w)) := by
  simp [step, hs, hf, hd]

/-- Everything a cycle that answers a next state can have done: a fetch fault, a decode fault, an execute step that
completed and was followed by PcUpdate and the tick, or an execute step that raised. -/
theorem step_cases {s t : State} (h : step s = .next t) :
    s.status = .running ∧
    ((4094 < s.pc.toNat ∧ t = raiseFault none (.fetchBounds s.pc) s) ∨
      ∃ w, fetch16 s.mem s.pc = .ok w ∧
        ((∃ e, decode w = .error e ∧ t = raiseFault (some w) (causeOfDecodeError e) (s.setOpcode w)) ∨
          ∃ i u, decode w = .ok i ∧ exec i (s.setOpcode w) = .next u ∧
            ((u.status = .running ∧ t = timerTick (pcUpdate i u)) ∨ ∃ r, u.status = .halted r ∧ t = u))) := by
  cases hs : s.status with
  | halted r => rw [step_halted hs] at h; simp at h
  | running =>
    refine ⟨rfl, ?_⟩
    by_cases hp : 4094 < s.pc.toNat
    · rw [step_fetch_error hs (fetch16_error hp)] at h
      exact .inl ⟨hp, by simpa using h.symm⟩
    · have hf := fetch16_ok (m := s.mem) (Nat.not_lt.mp hp)
      refine .inr ⟨_, hf, ?_⟩
      cases hd : decode (wordOfBytes (s.mem.read s.pc.toNat) (s.mem.read (s.pc.toNat + 1))) with
      | error e =>
        rw [step_decode_error hs hf hd] at h
        exact .inl ⟨e, rfl, by simpa using h.symm⟩
      | ok i =>
        rw [step_exec hs hf hd] at h
        cases he : exec i (s.setOpcode (wordOfBytes (s.mem.read s.pc.toNat) (s.mem.read (s.pc.toNat + 1)))) with
        | fault r => simp [he, completeCycle] at h
        | refused r => simp [he, completeCycle] at h
        | next u =>
          refine .inr ⟨i, u, rfl, he, ?_⟩
          cases hu : u.status with
          | running =>
            rw [he, completeCycle_running hu] at h
            exact .inl ⟨rfl, by simpa using h.symm⟩
          | halted r =>
            rw [he, completeCycle_halted hu] at h
            exact .inr ⟨r, rfl, by simpa using h.symm⟩

/-- A cycle that completed: its execute step, then PcUpdate and the tick. -/
theorem step_completed {s t : State} {w : Word} {i : Instr} (hs : s.status = .running)
    (hf : fetch16 s.mem s.pc = .ok w) (hd : decode w = .ok i) (h : step s = .next t) (ht : t.status = .running) :
    ∃ u, exec i (s.setOpcode w) = .next u ∧ u.status = .running ∧ t = timerTick (pcUpdate i u) := by
  rw [step_exec hs hf hd] at h
  cases he : exec i (s.setOpcode w) with
  | fault r => simp [he, completeCycle] at h
  | refused r => simp [he, completeCycle] at h
  | next u =>
    cases hu : u.status with
    | running =>
      rw [he, completeCycle_running hu] at h
      exact ⟨u, rfl, hu, by simpa using h.symm⟩
    | halted r =>
      rw [he, completeCycle_halted hu] at h
      cases h; rw [hu] at ht; cases ht

end Sys2Proof.Machine
end

