-- ==== Sys2Proof/Laws/HostEvents.lean ====
section
/-! SUPPORT. What a load and one host event can do, said once (70_reset R242, 60_exceptions R223). -/

namespace Sys2Proof.Machine

theorem load_ok {bytes : List Byte} (s : State) (h : bytes.length ≤ 3584) :
    load bytes s = s.setMem (copyBytes s.mem 0x200 bytes) := by
  simp [load, Config.progMax, Nat.not_lt.mpr h]

theorem load_error {bytes : List Byte} (s : State) (h : 3584 < bytes.length) :
    load bytes s = raiseFault none (.loadCapacity bytes.length) s := by
  simp [load, Config.progMax, h]

/-- A load keeps the canonical form of memory. -/
theorem load_wf (bytes : List Byte) {s : State} (h : s.mem.wf) : (load bytes s).mem.wf := by
  by_cases hl : bytes.length ≤ 3584
  · rw [load_ok s hl]; exact copyBytes_wf h (by omega)
  · rw [load_error s (Nat.not_le.mp hl)]; exact h

/-- Everything a host event that answers a next session can have done. -/
theorem hostStep_cases {e : HostEvent} {x y : Session} (h : hostStep e x = .next y) :
    (e = .reset ∧ y = ⟨resetFrom x.machine, false⟩) ∨
    (∃ bytes, e = .load bytes ∧ x.cycled = false ∧ x.machine.status = .running ∧ y = ⟨load bytes x.machine, false⟩) ∨
    (e = .cycle ∧ ∃ t, step x.machine = .next t ∧ y = ⟨t, true⟩) ∨
    (∃ keys, e = .setKeys keys ∧ y = ⟨x.machine.setKeys keys, x.cycled⟩) ∨
    (e = .redrawClear ∧ y = ⟨x.machine.setRedraw false, x.cycled⟩) := by
  cases e with
  | reset => exact .inl ⟨rfl, (Host.Outcome.next.inj h).symm⟩
  | load bytes =>
    simp only [hostStep] at h
    split at h
    · cases h
    · cases h
    · next hc hs => exact .inr (.inl ⟨bytes, rfl, hc, hs, (Host.Outcome.next.inj h).symm⟩)
  | cycle =>
    simp only [hostStep] at h
    split at h
    · next t ht => exact .inr (.inr (.inl ⟨rfl, t, ht, (Host.Outcome.next.inj h).symm⟩))
    · cases h
    · cases h
  | setKeys keys => exact .inr (.inr (.inr (.inl ⟨keys, rfl, (Host.Outcome.next.inj h).symm⟩)))
  | redrawClear => exact .inr (.inr (.inr (.inr ⟨rfl, (Host.Outcome.next.inj h).symm⟩)))

end Sys2Proof.Machine
end

