-- ==== Sys2Proof/Laws/PerInstr.lean ====
section
/-! SUPPORT. Per instruction: its word is accepted by its own row of the opcode map (30_encoding R82, R86), so every
instruction is well-formed. -/

namespace Sys2Proof.Laws.OwnRow

/-- The row of the opcode map that carries the instruction's mnemonic accepts the instruction's word. -/
def Statement (i : Instr) : Prop := ∃ r ∈ opcodeTable, r.mnemonic = i.mnemonic ∧ r.accepts (encode i) = true

/-- A row with mask 0xF000 accepts every word of its family. -/
theorem accepts_addr (m : String) (p : Nibble) (w : Word) (hf : family w = p) :
    OpcodeRow.accepts ⟨m, 0xF000, wordAddr p 0⟩ w = true := by
  simp only [OpcodeRow.accepts, beq_iff_eq]; exact (and_F000_iff w p).mpr hf

/-- A row with mask 0xF00F accepts every word of its family with its last nibble. -/
theorem accepts_regReg (m : String) (p n : Nibble) (w : Word) (hf : family w = p) (hn : fieldN w = n) :
    OpcodeRow.accepts ⟨m, 0xF00F, wordRegReg p 0 0 n⟩ w = true := by
  simp only [OpcodeRow.accepts, beq_iff_eq]; exact (and_F00F_iff w p n).mpr ⟨hf, hn⟩

/-- A row with mask 0xF0FF accepts every word of its family with its low byte. -/
theorem accepts_regByte (m : String) (p : Nibble) (nn : Byte) (w : Word) (hf : family w = p) (hn : fieldNN w = nn) :
    OpcodeRow.accepts ⟨m, 0xF0FF, wordRegByte p 0 nn⟩ w = true := by
  simp only [OpcodeRow.accepts, beq_iff_eq]; exact (and_F0FF_iff w p nn).mpr ⟨hf, hn⟩

theorem cls : Statement (.cls) :=
  ⟨⟨"CLS", 0xFFFF, 0x00E0⟩, by simp [opcodeTable, rowsLow, rowsAlu, rowsMid, rowsHigh], rfl, by decide⟩

theorem ret : Statement (.ret) :=
  ⟨⟨"RET", 0xFFFF, 0x00EE⟩, by simp [opcodeTable, rowsLow, rowsAlu, rowsMid, rowsHigh], rfl, by decide⟩

theorem jp (nnn : Addr) : Statement (.jp nnn) :=
  ⟨⟨"JP_nnn", 0xF000, 0x1000⟩, by simp [opcodeTable, rowsLow, rowsAlu, rowsMid, rowsHigh], rfl, accepts_addr _ 0x1 _ (by simp [encode])⟩

theorem call (nnn : Addr) : Statement (.call nnn) :=
  ⟨⟨"CALL_nnn", 0xF000, 0x2000⟩, by simp [opcodeTable, rowsLow, rowsAlu, rowsMid, rowsHigh], rfl, accepts_addr _ 0x2 _ (by simp [encode])⟩

theorem seImm (x : Reg) (nn : Byte) : Statement (.seImm x nn) :=
  ⟨⟨"SE_Vx__nn", 0xF000, 0x3000⟩, by simp [opcodeTable, rowsLow, rowsAlu, rowsMid, rowsHigh], rfl, accepts_addr _ 0x3 _ (by simp [encode])⟩

theorem sneImm (x : Reg) (nn : Byte) : Statement (.sneImm x nn) :=
  ⟨⟨"SNE_Vx__nn", 0xF000, 0x4000⟩, by simp [opcodeTable, rowsLow, rowsAlu, rowsMid, rowsHigh], rfl, accepts_addr _ 0x4 _ (by simp [encode])⟩

theorem seReg (x y : Reg) : Statement (.seReg x y) :=
  ⟨⟨"SE_Vx__Vy", 0xF00F, 0x5000⟩, by simp [opcodeTable, rowsLow, rowsAlu, rowsMid, rowsHigh], rfl, accepts_regReg _ 0x5 0x0 _ (by simp [encode]) (by simp [encode])⟩

theorem ldImm (x : Reg) (nn : Byte) : Statement (.ldImm x nn) :=
  ⟨⟨"LD_Vx__nn", 0xF000, 0x6000⟩, by simp [opcodeTable, rowsLow, rowsAlu, rowsMid, rowsHigh], rfl, accepts_addr _ 0x6 _ (by simp [encode])⟩

theorem addImm (x : Reg) (nn : Byte) : Statement (.addImm x nn) :=
  ⟨⟨"ADD_Vx__nn", 0xF000, 0x7000⟩, by simp [opcodeTable, rowsLow, rowsAlu, rowsMid, rowsHigh], rfl, accepts_addr _ 0x7 _ (by simp [encode])⟩

theorem ldReg (x y : Reg) : Statement (.ldReg x y) :=
  ⟨⟨"LD_Vx__Vy", 0xF00F, 0x8000⟩, by simp [opcodeTable, rowsLow, rowsAlu, rowsMid, rowsHigh], rfl, accepts_regReg _ 0x8 0x0 _ (by simp [encode]) (by simp [encode])⟩

theorem orReg (x y : Reg) : Statement (.orReg x y) :=
  ⟨⟨"OR_Vx__Vy", 0xF00F, 0x8001⟩, by simp [opcodeTable, rowsLow, rowsAlu, rowsMid, rowsHigh], rfl, accepts_regReg _ 0x8 0x1 _ (by simp [encode]) (by simp [encode])⟩

theorem andReg (x y : Reg) : Statement (.andReg x y) :=
  ⟨⟨"AND_Vx__Vy", 0xF00F, 0x8002⟩, by simp [opcodeTable, rowsLow, rowsAlu, rowsMid, rowsHigh], rfl, accepts_regReg _ 0x8 0x2 _ (by simp [encode]) (by simp [encode])⟩

theorem xorReg (x y : Reg) : Statement (.xorReg x y) :=
  ⟨⟨"XOR_Vx__Vy", 0xF00F, 0x8003⟩, by simp [opcodeTable, rowsLow, rowsAlu, rowsMid, rowsHigh], rfl, accepts_regReg _ 0x8 0x3 _ (by simp [encode]) (by simp [encode])⟩

theorem addReg (x y : Reg) : Statement (.addReg x y) :=
  ⟨⟨"ADD_Vx__Vy", 0xF00F, 0x8004⟩, by simp [opcodeTable, rowsLow, rowsAlu, rowsMid, rowsHigh], rfl, accepts_regReg _ 0x8 0x4 _ (by simp [encode]) (by simp [encode])⟩

theorem subReg (x y : Reg) : Statement (.subReg x y) :=
  ⟨⟨"SUB_Vx__Vy", 0xF00F, 0x8005⟩, by simp [opcodeTable, rowsLow, rowsAlu, rowsMid, rowsHigh], rfl, accepts_regReg _ 0x8 0x5 _ (by simp [encode]) (by simp [encode])⟩

theorem shr (x y : Reg) : Statement (.shr x y) :=
  ⟨⟨"SHR_Vx__Vy", 0xF00F, 0x8006⟩, by simp [opcodeTable, rowsLow, rowsAlu, rowsMid, rowsHigh], rfl, accepts_regReg _ 0x8 0x6 _ (by simp [encode]) (by simp [encode])⟩

theorem subnReg (x y : Reg) : Statement (.subnReg x y) :=
  ⟨⟨"SUBN_Vx__Vy", 0xF00F, 0x8007⟩, by simp [opcodeTable, rowsLow, rowsAlu, rowsMid, rowsHigh], rfl, accepts_regReg _ 0x8 0x7 _ (by simp [encode]) (by simp [encode])⟩

theorem shl (x y : Reg) : Statement (.shl x y) :=
  ⟨⟨"SHL_Vx__Vy", 0xF00F, 0x800E⟩, by simp [opcodeTable, rowsLow, rowsAlu, rowsMid, rowsHigh], rfl, accepts_regReg _ 0x8 0xE _ (by simp [encode]) (by simp [encode])⟩

theorem sneReg (x y : Reg) : Statement (.sneReg x y) :=
  ⟨⟨"SNE_Vx__Vy", 0xF00F, 0x9000⟩, by simp [opcodeTable, rowsLow, rowsAlu, rowsMid, rowsHigh], rfl, accepts_regReg _ 0x9 0x0 _ (by simp [encode]) (by simp [encode])⟩

theorem ldI (nnn : Addr) : Statement (.ldI nnn) :=
  ⟨⟨"LD_I__nnn", 0xF000, 0xA000⟩, by simp [opcodeTable, rowsLow, rowsAlu, rowsMid, rowsHigh], rfl, accepts_addr _ 0xA _ (by simp [encode])⟩

theorem jpV0 (nnn : Addr) : Statement (.jpV0 nnn) :=
  ⟨⟨"JP_V0__nnn", 0xF000, 0xB000⟩, by simp [opcodeTable, rowsLow, rowsAlu, rowsMid, rowsHigh], rfl, accepts_addr _ 0xB _ (by simp [encode])⟩

theorem rnd (x : Reg) (nn : Byte) : Statement (.rnd x nn) :=
  ⟨⟨"RND_Vx__nn", 0xF000, 0xC000⟩, by simp [opcodeTable, rowsLow, rowsAlu, rowsMid, rowsHigh], rfl, accepts_addr _ 0xC _ (by simp [encode])⟩

theorem drw (x y : Reg) (n : Nibble) : Statement (.drw x y n) :=
  ⟨⟨"DRW_Vx__Vy__n", 0xF000, 0xD000⟩, by simp [opcodeTable, rowsLow, rowsAlu, rowsMid, rowsHigh], rfl, accepts_addr _ 0xD _ (by simp [encode])⟩

theorem skp (x : Reg) : Statement (.skp x) :=
  ⟨⟨"SKP_Vx", 0xF0FF, 0xE09E⟩, by simp [opcodeTable, rowsLow, rowsAlu, rowsMid, rowsHigh], rfl, accepts_regByte _ 0xE 0x9E _ (by simp [encode]) (by simp [encode])⟩

theorem sknp (x : Reg) : Statement (.sknp x) :=
  ⟨⟨"SKNP_Vx", 0xF0FF, 0xE0A1⟩, by simp [opcodeTable, rowsLow, rowsAlu, rowsMid, rowsHigh], rfl, accepts_regByte _ 0xE 0xA1 _ (by simp [encode]) (by simp [encode])⟩

theorem ldVxDT (x : Reg) : Statement (.ldVxDT x) :=
  ⟨⟨"LD_Vx__DT", 0xF0FF, 0xF007⟩, by simp [opcodeTable, rowsLow, rowsAlu, rowsMid, rowsHigh], rfl, accepts_regByte _ 0xF 0x07 _ (by simp [encode]) (by simp [encode])⟩

theorem ldVxK (x : Reg) : Statement (.ldVxK x) :=
  ⟨⟨"LD_Vx__K", 0xF0FF, 0xF00A⟩, by simp [opcodeTable, rowsLow, rowsAlu, rowsMid, rowsHigh], rfl, accepts_regByte _ 0xF 0x0A _ (by simp [encode]) (by simp [encode])⟩

theorem ldDTVx (x : Reg) : Statement (.ldDTVx x) :=
  ⟨⟨"LD_DT__Vx", 0xF0FF, 0xF015⟩, by simp [opcodeTable, rowsLow, rowsAlu, rowsMid, rowsHigh], rfl, accepts_regByte _ 0xF 0x15 _ (by simp [encode]) (by simp [encode])⟩

theorem ldSTVx (x : Reg) : Statement (.ldSTVx x) :=
  ⟨⟨"LD_ST__Vx", 0xF0FF, 0xF018⟩, by simp [opcodeTable, rowsLow, rowsAlu, rowsMid, rowsHigh], rfl, accepts_regByte _ 0xF 0x18 _ (by simp [encode]) (by simp [encode])⟩

theorem addI (x : Reg) : Statement (.addI x) :=
  ⟨⟨"ADD_I__Vx", 0xF0FF, 0xF01E⟩, by simp [opcodeTable, rowsLow, rowsAlu, rowsMid, rowsHigh], rfl, accepts_regByte _ 0xF 0x1E _ (by simp [encode]) (by simp [encode])⟩

theorem ldF (x : Reg) : Statement (.ldF x) :=
  ⟨⟨"LD_F__Vx", 0xF0FF, 0xF029⟩, by simp [opcodeTable, rowsLow, rowsAlu, rowsMid, rowsHigh], rfl, accepts_regByte _ 0xF 0x29 _ (by simp [encode]) (by simp [encode])⟩

theorem ldB (x : Reg) : Statement (.ldB x) :=
  ⟨⟨"LD_B__Vx", 0xF0FF, 0xF033⟩, by simp [opcodeTable, rowsLow, rowsAlu, rowsMid, rowsHigh], rfl, accepts_regByte _ 0xF 0x33 _ (by simp [encode]) (by simp [encode])⟩

theorem ldMemVx (x : Reg) : Statement (.ldMemVx x) :=
  ⟨⟨"LD__I___Vx", 0xF0FF, 0xF055⟩, by simp [opcodeTable, rowsLow, rowsAlu, rowsMid, rowsHigh], rfl, accepts_regByte _ 0xF 0x55 _ (by simp [encode]) (by simp [encode])⟩

theorem ldVxMem (x : Reg) : Statement (.ldVxMem x) :=
  ⟨⟨"LD_Vx___I", 0xF0FF, 0xF065⟩, by simp [opcodeTable, rowsLow, rowsAlu, rowsMid, rowsHigh], rfl, accepts_regByte _ 0xF 0x65 _ (by simp [encode]) (by simp [encode])⟩

end Sys2Proof.Laws.OwnRow
end

