-- ==== Sys2Proof/Tests/Slice0.lean ====
section
/-! SUPPORT. The model's own tests. Expected results come from spec/: the words from 30_encoding and spec/opcode_table.json,
the values from the rows of 95_test_vectors or by hand from the rule named. Then the witnesses: for each statement with
hypotheses, a concrete state and operands that meet them. -/

namespace Sys2Proof.Tests

open Sys2Proof Sys2Proof.Machine Sys2Proof.Claims

/-- The state a cycle leaves; its own argument where the cycle answers no next state. -/
def cycle (s : State) : State :=
  match step s with
  | .next t => t
  | .fault _ => s
  | .refused _ => s

/-- The state an execute step leaves; its own argument where it answers no next state. -/
def execute (i : Instr) (s : State) : State :=
  match exec i s with
  | .next t => t
  | .fault _ => s
  | .refused _ => s

/-- `s` about to run the word `w` at 0x300 (the placement of 95_test_vectors L2). -/
def placed (w : Nat) (s : State) : State := (s.setPc 0x300).withFetchWord 16 w

/-- One cycle of the word `w` at 0x300. -/
def run (w : Nat) (s : State) : State := cycle (placed w s)

/-- Reset with `V[x]` set. -/
def r1 (x : Reg) (a : Byte) : State := State.reset.setV x a

/-- Reset with `V[x]` and `V[y]` set. -/
def r2 (x : Reg) (a : Byte) (y : Reg) (b : Byte) : State := (State.reset.setV x a).setV y b

/-- `s` with key `k` pressed too. -/
def press (k : Fin 16) (s : State) : State := s.setKeys (s.keys.set k true)

/-- `s` with the byte `b` at address `a`. -/
def poke (a : Nat) (b : Byte) (s : State) : State := s.setMem (s.mem.write a b)

/-- The record a faulting cycle leaves. -/
def record (s : State) : Option FaultRecord :=
  match s.status with
  | .running => none
  | .halted r => some r

/-! ### Decoding: one word for every row, its bits from the formats of 30_encoding R72 -/

theorem test_decode_fixed : decode 0x00E0 = .ok .cls ∧ decode 0x00EE = .ok .ret := by decide

theorem test_decode_addr :
    decode 0b0001_0010_0011_0100 = .ok (.jp 0x234) ∧ decode 0b0010_0010_0011_0100 = .ok (.call 0x234) ∧
    decode 0b1010_0010_0011_0100 = .ok (.ldI 0x234) ∧ decode 0b1011_0010_0011_0100 = .ok (.jpV0 0x234) := by decide

theorem test_decode_regImm :
    decode 0b0011_1010_0010_1011 = .ok (.seImm 10 0x2B) ∧ decode 0b0100_1010_0010_1011 = .ok (.sneImm 10 0x2B) ∧
    decode 0b0110_1010_0010_1011 = .ok (.ldImm 10 0x2B) ∧ decode 0b0111_1010_0010_1011 = .ok (.addImm 10 0x2B) ∧
    decode 0b1100_1010_0010_1011 = .ok (.rnd 10 0x2B) := by decide

theorem test_decode_regReg :
    decode 0b0101_0001_1110_0000 = .ok (.seReg 1 14) ∧ decode 0b1001_0001_1110_0000 = .ok (.sneReg 1 14) ∧
    decode 0b1101_0001_1110_0101 = .ok (.drw 1 14 5) := by decide

theorem test_decode_family8 :
    decode 0b1000_0001_1110_0000 = .ok (.ldReg 1 14) ∧ decode 0b1000_0001_1110_0001 = .ok (.orReg 1 14) ∧
    decode 0b1000_0001_1110_0010 = .ok (.andReg 1 14) ∧ decode 0b1000_0001_1110_0011 = .ok (.xorReg 1 14) ∧
    decode 0b1000_0001_1110_0100 = .ok (.addReg 1 14) ∧ decode 0b1000_0001_1110_0101 = .ok (.subReg 1 14) ∧
    decode 0b1000_0001_1110_0110 = .ok (.shr 1 14) ∧ decode 0b1000_0001_1110_0111 = .ok (.subnReg 1 14) ∧
    decode 0b1000_0001_1110_1110 = .ok (.shl 1 14) := by decide

theorem test_decode_familyE :
    decode 0b1110_0101_1001_1110 = .ok (.skp 5) ∧ decode 0b1110_0101_1010_0001 = .ok (.sknp 5) := by decide

theorem test_decode_familyF :
    decode 0b1111_0101_0000_0111 = .ok (.ldVxDT 5) ∧ decode 0b1111_0101_0000_1010 = .ok (.ldVxK 5) ∧
    decode 0b1111_0101_0001_0101 = .ok (.ldDTVx 5) ∧ decode 0b1111_0101_0001_1000 = .ok (.ldSTVx 5) ∧
    decode 0b1111_0101_0001_1110 = .ok (.addI 5) ∧ decode 0b1111_0101_0010_1001 = .ok (.ldF 5) ∧
    decode 0b1111_0101_0011_0011 = .ok (.ldB 5) ∧ decode 0b1111_0101_0101_0101 = .ok (.ldMemVx 5) ∧
    decode 0b1111_0101_0110_0101 = .ok (.ldVxMem 5) := by decide

/-- The high byte stands at the lower address (20_memory R53). -/
theorem test_decodeTableWord : decodeTableWord 16 0x6A2B = some (.ldImm 10 0x2B) ∧
    decodeBytes 0x6A 0x2B = .ok (.ldImm 10 0x2B) ∧ decodeTableWord 16 0x0123 = none := by decide

/-! ### The check of WellFormed: one illegal word for each family that has any (R85, R87 to R91; 95_test_vectors L2-6) -/

theorem test_illegal_family0 : legalWord 0x0000 = false ∧ legalWord 0x0123 = false ∧ legalWord 0x01E0 = false := by decide
theorem test_illegal_family5 : legalWord 0x5121 = false ∧ legalWord 0x5120 = true := by decide
theorem test_illegal_family8 : legalWord 0x8128 = false ∧ legalWord 0x812F = false ∧ legalWord 0x812E = true := by decide
theorem test_illegal_family9 : legalWord 0x912F = false ∧ legalWord 0x9120 = true := by decide
theorem test_illegal_familyE : legalWord 0xE09F = false ∧ legalWord 0xE0A0 = false ∧ legalWord 0xE0A1 = true := by decide
theorem test_illegal_familyF : legalWord 0xF000 = false ∧ legalWord 0xF01F = false ∧ legalWord 0xF066 = false := by decide

/-! ### One cycle each, from the rows of 95_test_vectors L2 -/

/-- L2-4 row 1. -/
theorem test_cls : (run 0x00E0 (State.reset.setFb (State.reset.fb.set 63 (State.reset.fb[63].set 31 true)))).fb[63][31] = false ∧
    (run 0x00E0 State.reset).shouldRedraw = true := by decide

/-- L2-1 row 1. -/
theorem test_ret : (run 0x00EE (State.reset.setStack ((State.reset.stack.set 0 0x202).set 1 0x310) 2)).pc = 0x312 ∧
    (run 0x00EE (State.reset.setStack ((State.reset.stack.set 0 0x202).set 1 0x310) 2)).sp = 1 := by decide
/-- L2-1 row 2. -/
theorem test_ret_underflow : record (run 0x00EE State.reset) = some ⟨0x300, some 0x00EE, .stackUnderflow 0⟩ := by decide

/-- L2-1 row 4: a jump to itself, with a tick. -/
theorem test_jp : (run 0x1300 (State.reset.setDT 1)).pc = 0x300 ∧ (run 0x1300 (State.reset.setDT 1)).dt = 0 := by decide

/-- L2-1 row 5. -/
theorem test_call : (run 0x2400 (State.reset.setStack State.reset.stack 15)).stack[15] = 0x300 ∧
    (run 0x2400 (State.reset.setStack State.reset.stack 15)).sp = 16 ∧
    (run 0x2400 (State.reset.setStack State.reset.stack 15)).pc = 0x400 := by decide
/-- L2-1 row 6. -/
theorem test_call_overflow :
    record (run 0x2400 (State.reset.setStack State.reset.stack 16)) = some ⟨0x300, some 0x2400, .stackOverflow 16⟩ := by
  decide

/-- L2-1 rows 7, 8. -/
theorem test_seImm : (run 0x3342 (r1 3 0x42)).pc = 0x304 ∧ (run 0x3342 (r1 3 0x41)).pc = 0x302 := by decide
/-- L2-1 rows 10, 11. -/
theorem test_sneImm : (run 0x4342 (r1 3 0x42)).pc = 0x302 ∧ (run 0x4342 (r1 3 0)).pc = 0x304 := by decide
/-- L2-1 row 12, and by hand. -/
theorem test_seReg : (run 0x5120 (r2 1 7 2 7)).pc = 0x304 ∧ (run 0x5120 (r2 1 7 2 8)).pc = 0x302 := by decide
/-- L2-1 rows 15, 16. -/
theorem test_sneReg : (run 0x9120 (r2 1 7 2 8)).pc = 0x304 ∧ (run 0x9110 State.reset).pc = 0x302 := by decide
/-- L2-1 rows 19, 20. -/
theorem test_jpV0 : (run 0xBFF0 (r1 0 0x20)).pc = 0x1010 ∧ (run 0xBFFF (r1 0 0xFF)).pc = 0x10FE := by decide

/-- L2-2 row 1. -/
theorem test_ldImm : (run 0x6F12 (r1 15 1)).getV 15 = 0x12 ∧ (run 0x6F12 (r1 15 1)).pc = 0x302 := by decide
/-- L1-2 and L2-2 row 2. -/
theorem test_addImm : (run 0x710A (r1 1 250)).getV 1 = 4 ∧ (run 0x710A (r1 1 250)).getV 15 = 0 ∧
    (run 0x7F01 (r1 15 0xFF)).getV 15 = 0 := by decide
/-- L2-2 row 4. -/
theorem test_ldReg : (run 0x8120 (r1 2 0x99)).getV 1 = 0x99 := by decide
/-- L2-2 row 5. -/
theorem test_orReg : (run 0x8121 ((r2 1 0x0F 2 0xF0).setV 15 1)).getV 1 = 0xFF ∧
    (run 0x8121 ((r2 1 0x0F 2 0xF0).setV 15 1)).getV 15 = 1 := by decide
/-- L2-2 row 6. -/
theorem test_andReg : (run 0x8122 (r2 1 0xF0 2 0x3C)).getV 1 = 0x30 := by decide
/-- 41_alu R125, its example, and L2-2 row 7. -/
theorem test_xorReg : (run 0x8123 (r2 1 0xF0 2 0x3C)).getV 1 = 0xCC ∧ (run 0x8113 (r1 1 0x5A)).getV 1 = 0 := by decide
/-- L2-2 rows 8, 9. -/
theorem test_addReg : (run 0x8124 (r1 1 0xFF)).getV 15 = 0 ∧ (run 0x8124 (r2 1 0xFF 2 1)).getV 1 = 0 ∧
    (run 0x8124 (r2 1 0xFF 2 1)).getV 15 = 1 := by decide
/-- L2-2 rows 11, 12, 13: VF as an operand. -/
theorem test_addReg_vf : (run 0x8F14 (r2 15 200 1 100)).getV 15 = 0x65 ∧ (run 0x81F4 (r2 1 200 15 100)).getV 1 = 0xC9 ∧
    (run 0x8FF4 (r1 15 0x80)).getV 15 = 2 := by decide
/-- L2-2 rows 16, 17. -/
theorem test_subReg : (run 0x8235 (r2 2 3 3 5)).getV 2 = 0xFE ∧ (run 0x8235 (r2 2 3 3 5)).getV 15 = 0 ∧
    (run 0x8125 (r2 1 7 2 7)).getV 15 = 1 := by decide
/-- L2-2 rows 18, 19: VF as an operand. -/
theorem test_subReg_vf : (run 0x8F15 (r2 15 3 1 5)).getV 15 = 0 ∧ (run 0x81F5 (r2 1 5 15 9)).getV 1 = 0xFC := by decide
/-- L2-2 rows 20, 21. -/
theorem test_shr : (run 0x8306 (r1 3 0xFF)).getV 3 = 0x7F ∧ (run 0x8306 (r1 3 0xFF)).getV 15 = 1 ∧
    (run 0x8126 (r2 1 2 2 0xFF)).getV 1 = 1 := by decide
/-- L2-2 rows 23, 24. -/
theorem test_subnReg : (run 0x8327 (r2 2 2 3 3)).getV 3 = 0xFF ∧ (run 0x8327 (r2 2 2 3 3)).getV 15 = 0 ∧
    (run 0x8127 (r2 1 3 2 9)).getV 1 = 6 := by decide
/-- L2-2 rows 26, 28. -/
theorem test_shl : (run 0x830E (r1 3 0x7F)).getV 3 = 0xFE ∧ (run 0x830E (r1 3 0x7F)).getV 15 = 0 ∧
    (run 0x8F0E (r1 15 0x80)).getV 15 = 1 := by decide
/-- L2-2 row 31, on the byte drawn; and one draw spent. -/
theorem test_rnd : (randomInto 0xA7 5 0x0F State.reset).getV 5 = 7 ∧ (run 0xC50F State.reset).draws = 1 ∧
    (run 0xC50F State.reset).pc = 0x302 := by decide

/-- L2-3 row 1. -/
theorem test_ldI : (run 0xA123 State.reset).i = 0x123 := by decide
/-- L2-3 rows 3, 4. -/
theorem test_addI : (run 0xF11E ((r1 1 1).setI 0xFFE)).getV 15 = 0 ∧ (run 0xF11E ((r1 1 0x10).setI 0xFFA)).i = 0x100A ∧
    (run 0xF11E ((r1 1 0x10).setI 0xFFA)).getV 15 = 1 := by decide
/-- L2-3 rows 5, 6: the wrap, and VF as the operand. -/
theorem test_addI_vf : (run 0xF11E ((r1 1 1).setI 0xFFFF)).i = 0 ∧ (run 0xFF1E ((r1 15 1).setI 0xFFF)).i = 0x1000 := by
  decide
/-- L2-3 rows 7, 9. -/
theorem test_ldF : (run 0xF429 (r1 4 0x0A)).i = 0x032 ∧ (run 0xF429 (r1 4 0xFF)).i = 0x4FB := by decide
/-- 42_index_memory R153, its example. -/
theorem test_ldB : [0x300, 0x301, 0x302].map (execute (.ldB 0) ((r1 0 254).setI 0x300)).mem.read = [2, 5, 4] := by decide
/-- L2-3 row 13: the byte at 0xFFE is not written. -/
theorem test_ldB_bounds : record (run 0xF033 ((r1 0 7).setI 0xFFE)) = some ⟨0x300, some 0xF033, .memWriteBounds 0x1000⟩ ∧
    (run 0xF033 ((r1 0 7).setI 0xFFE)).mem.read 0xFFE = 0 := by decide
/-- L2-3 row 14. -/
theorem test_ldMemVx : [0x400, 0x401, 0x402, 0x403].map (run 0xF255 (((r2 0 1 1 2).setV 2 3).setI 0x400)).mem.read = [1, 2, 3, 0] ∧
    (run 0xF255 (((r2 0 1 1 2).setV 2 3).setI 0x400)).i = 0x403 := by decide
/-- L2-3 row 17. -/
theorem test_ldMemVx_bounds : record (run 0xFF55 (State.reset.setI 0xFF1)) = some ⟨0x300, some 0xFF55, .memWriteBounds 0x1000⟩ ∧
    (run 0xFF55 (State.reset.setI 0xFF1)).i = 0xFF1 := by decide
/-- L2-3 row 18: a load reads the instruction stream. -/
theorem test_ldVxMem : (run 0xF265 ((r1 3 9).setI 0x300)).getV 0 = 0xF2 ∧ (run 0xF265 ((r1 3 9).setI 0x300)).getV 1 = 0x65 ∧
    (run 0xF265 ((r1 3 9).setI 0x300)).getV 3 = 9 ∧ (run 0xF265 ((r1 3 9).setI 0x300)).i = 0x303 := by decide
/-- L2-3 rows 20, 21. -/
theorem test_ldVxMem_bounds : record (run 0xF165 (State.reset.setI 0xFFF)) = some ⟨0x300, some 0xF165, .memReadBounds 0x1000⟩ ∧
    record (run 0xF065 (State.reset.setI 0xFFFF)) = some ⟨0x300, some 0xF065, .memReadBounds 0xFFFF⟩ := by decide

/-- L2-4 row 6. -/
def drawn : State :=
  run 0xD011 ((poke 0x400 0xC0 (State.reset.setFb (State.reset.fb.set 1 (State.reset.fb[1].set 0 true)))).setI 0x400)
theorem test_drw_collision : drawn.fb[0][0] = true ∧ drawn.fb[1][0] = false ∧ drawn.getV 15 = 1 ∧ drawn.shouldRedraw = true := by
  decide
/-- 43_display R171, its example: both coordinates wrap. -/
def wrapped : State := run 0xD012 (poke 0x401 0x81 (poke 0x400 0xC0 ((r2 0 62 1 31).setI 0x400)))
theorem test_drw_wrap : wrapped.fb[62][31] = true ∧ wrapped.fb[63][31] = true ∧ wrapped.fb[62][0] = true ∧
    wrapped.fb[5][0] = true ∧ wrapped.fb[0][31] = false ∧ wrapped.getV 15 = 0 := by decide

/-- L2-5 rows 1, 2. -/
theorem test_skp : (run 0xE59E (press 10 (r1 5 0xA))).pc = 0x304 ∧ (run 0xE59E (r1 5 0xA)).pc = 0x302 := by decide
/-- L2-5 row 5. -/
theorem test_skp_index : record (run 0xE59E (r1 5 16)) = some ⟨0x300, some 0xE59E, .keyIndex 16⟩ := by decide
/-- L2-5 rows 3, 4. -/
theorem test_sknp : (run 0xE5A1 (press 3 (r1 5 3))).pc = 0x302 ∧ (run 0xE5A1 (r1 5 0xA)).pc = 0x304 := by decide
/-- L2-5 row 6. -/
theorem test_sknp_index : record (run 0xE5A1 (r1 5 0xFF)) = some ⟨0x300, some 0xE5A1, .keyIndex 0xFF⟩ := by decide
/-- L2-5 row 7. -/
theorem test_ldVxDT : (run 0xF107 (State.reset.setDT 2)).getV 1 = 2 ∧ (run 0xF107 (State.reset.setDT 2)).dt = 1 := by decide
/-- L2-5 row 9. -/
theorem test_ldVxK_stall : (run 0xF30A (State.reset.setDT 5)).pc = 0x300 ∧ (run 0xF30A (State.reset.setDT 5)).dt = 4 := by
  decide
/-- L2-5 row 10. -/
theorem test_ldVxK : (run 0xF30A (press 15 (press 9 (press 2 State.reset)))).getV 3 = 2 ∧
    (run 0xF30A (press 15 (press 9 (press 2 State.reset)))).pc = 0x302 := by decide
/-- L2-5 rows 12, 13. -/
theorem test_ldDTVx : (run 0xF015 (r1 0 3)).dt = 2 ∧ (run 0xF015 (r1 0 1)).dt = 0 := by decide
/-- L2-5 rows 14, 15. -/
theorem test_ldSTVx : (run 0xF018 (r1 0 0xFF)).st = 0xFE ∧ (run 0xF018 (r1 0 0xFF)).soundActive = true ∧
    (run 0xF018 (State.reset.setST 9)).st = 0 := by decide

/-- L2-6 rows 1, 7 and L2-5 row 17: what a fault records, and no tick. -/
theorem test_faults : record (run 0x0000 (State.reset.setDT 5)) = some ⟨0x300, some 0x0000, .decodeError 0x0000 0⟩ ∧
    (run 0x0000 (State.reset.setDT 5)).dt = 5 ∧
    record (cycle (State.reset.setPc 0xFFF)) = some ⟨0xFFF, none, .fetchBounds 0xFFF⟩ := by decide

/-- 60_exceptions R210: codes and info. -/
theorem test_codes : [FaultCause.decodeError 0 0, .fetchBounds 0, .memReadBounds 0, .memWriteBounds 0, .stackOverflow 16,
    .stackUnderflow 0, .keyIndex 16, .loadCapacity 3585].map FaultCause.code = [1, 2, 3, 4, 5, 6, 7, 8] ∧
    (FaultCause.loadCapacity 3585).info = [3585] := by decide

/-! ### Witnesses: the hypotheses of each statement are met together

The state built for it follows each statement's name. -/

/-- Every row of the opcode map has a word: the premise of `Encoding`. -/
theorem witness_encoding : opcodeTable.all (fun r => r.accepts r.pattern) = true := by decide

theorem witness_JumpSetsPc : (0xFFF : Addr).toNat = 0xFFF := by decide

theorem witness_SkipOnImmediate : (State.reset.setPc 0xFFC).pc = 0xFFC ∧ (r1 3 0x42).getV 3 = 0x42 ∧ (r1 3 0x41).getV 3 ≠ 0x42 := by
  decide

theorem witness_SkipOnRegisters : (family 0x5121 = 5 ∧ fieldN 0x5121 ≠ 0) ∧ (family 0x912F = 9 ∧ fieldN 0x912F ≠ 0) ∧
    (r2 1 7 2 7).getV 1 = (r2 1 7 2 7).getV 2 ∧ (r2 1 7 2 8).getV 1 ≠ (r2 1 7 2 8).getV 2 := by decide

/-- The stack with 0, 15 and 16 entries in use. -/
theorem witness_CallPushesCallSite : State.reset.sp.val < 16 ∧ (State.reset.setStack State.reset.stack 15).sp.val < 16 ∧
    (State.reset.setStack State.reset.stack 16).sp.val = 16 := by decide

theorem witness_ReturnPopsCallSite : (State.reset.setStack State.reset.stack 1).sp.val = (0 : Fin 16).val + 1 ∧
    (State.reset.setStack State.reset.stack 16).sp.val = (15 : Fin 16).val + 1 ∧ State.reset.sp.val = 0 := by decide

/-- CALL 0x400 at 0x300 and RET at 0x400 (95_test_vectors L1-4). -/
def caller : State := placed 0x2400 (poke 0x401 0xEE (poke 0x400 0x00 State.reset))
theorem witness_CallThenReturn : caller.status = .running ∧ caller.sp.val < 16 ∧
    fetch16 caller.mem caller.pc = .ok (encode (.call 0x400)) ∧ step caller = .next (cycle caller) ∧
    fetch16 (cycle caller).mem (cycle caller).pc = .ok (encode .ret) ∧
    step (cycle caller) = .next (cycle (cycle caller)) := by
  refine ⟨rfl, ?_, ?_, rfl, ?_, rfl⟩ <;> decide

/-- The four cases of X and Y, with the sums 255 and 256. -/
theorem witness_AddWithCarry : ((1 : Reg) ≠ 15 ∧ (2 : Reg) ≠ 15) ∧ ((15 : Reg) = 15 ∧ (1 : Reg) ≠ 15) ∧
    ¬ 255 < ((r1 1 255).getV 1).toNat + ((r1 1 255).getV 2).toNat ∧
    255 < ((r2 1 255 2 1).getV 1).toNat + ((r2 1 255 2 1).getV 2).toNat := by decide

theorem witness_SubtractNoBorrow : (1 : Reg) ≠ 15 ∧ ((r2 1 7 2 7).getV 2).toNat ≤ ((r2 1 7 2 7).getV 1).toNat ∧
    ¬ ((r2 1 7 2 8).getV 2).toNat ≤ ((r2 1 7 2 8).getV 1).toNat := by decide

theorem witness_ShiftByOne : (3 : Reg) ≠ 15 ∧ (1 : Reg) ≠ 3 ∧ (1 : Reg) ≠ 15 := by decide

theorem witness_RandomIsMasked : (0x0F : Byte).getLsbD 4 = false ∧ (1 : Reg) ≠ 5 := by decide

theorem witness_AddToIndex : (1 : Reg) ≠ 15 ∧ (15 : Reg) = 15 ∧
    ¬ 0xFFF < ((r1 1 1).setI 0xFFE).i.toNat + (((r1 1 1).setI 0xFFE).getV 1).toNat ∧
    0xFFF < ((r1 1 2).setI 0xFFE).i.toNat + (((r1 1 2).setI 0xFFE).getV 1).toNat := by decide

theorem witness_StoreDecimal : (State.reset.setI 0xFFD).i.toNat + 2 ≤ 4095 ∧ 4095 < (State.reset.setI 0xFFE).i.toNat + 2 := by
  decide

theorem witness_StoreRegisters : (State.reset.setI 0xFF0).i.toNat + (15 : Reg).val ≤ 4095 ∧
    4095 < (State.reset.setI 0xFF1).i.toNat + (15 : Reg).val := by decide

theorem witness_LoadRegisters : (State.reset.setI 0xFFF).i.toNat + (0 : Reg).val ≤ 4095 ∧
    4095 < (State.reset.setI 0x1000).i.toNat + (0 : Reg).val ∧ (2 : Reg) < 3 := by decide

/-- V0 and V1 stored at 0x400, I set back, and loaded again. -/
def stored : State := execute (.ldMemVx 1) ((r2 0 7 1 9).setI 0x400)
theorem witness_StoreThenLoadRestores : ((r2 0 7 1 9).setI 0x400).i.toNat + (1 : Reg).val ≤ 4095 ∧
    exec (.ldMemVx 1) ((r2 0 7 1 9).setI 0x400) = .next stored ∧
    (stored.setI 0x400).mem = stored.mem ∧ (stored.setI 0x400).i = ((r2 0 7 1 9).setI 0x400).i ∧
    exec (.ldVxMem 1) (stored.setI 0x400) = .next (execute (.ldVxMem 1) (stored.setI 0x400)) := by
  refine ⟨?_, rfl, rfl, rfl, rfl⟩; decide

/-- A listed byte, and a byte equal to the reset contents. -/
theorem witness_MemoryIsPlainStorage : (State.reset.mem.write 4095 1).wf ∧ (4095 : Nat) ≤ 4095 ∧
    (State.reset.mem.write 0 0xF0).wf ∧ (∀ a, (State.reset.mem.write 0 0xF0).read a = State.reset.mem.read a) := by
  refine ⟨by decide, by decide, by decide, fun a => ?_⟩
  have : State.reset.mem.write 0 0xF0 = State.reset.mem := by decide
  rw [this]

/-- No row; and 15 rows that end at 4095. The glyph 0 at (0, 0) hits cell (0, 0) and not cell (8, 0). -/
theorem witness_DrawIsXorOfMask : (0 : Nibble).toNat = 0 ∧ (State.reset.setI 0xFF1).i.toNat + (15 : Nibble).toNat ≤ 4096 ∧
    SpriteHits State.reset 0 1 1 0 0 ∧ ¬ SpriteHits State.reset 0 1 1 8 0 := by
  refine ⟨by decide, by decide, ⟨0, 0, by decide, by decide, by decide, by decide, by decide⟩, ?_⟩
  rintro ⟨r, c, _, hc, _, e, _⟩
  have : ((State.reset.getV 0).toNat) = 0 := by decide
  rw [this] at e
  have : ((8 : Fin 64).val) = 8 := rfl
  omega

theorem witness_DrawOutOfRange : (15 : Nibble).toNat ≠ 0 ∧ 4096 < (State.reset.setI 0xFF2).i.toNat + (15 : Nibble).toNat ∧
    (1 : Nibble).toNat ≠ 0 ∧ 4096 < (State.reset.setI 0x1000).i.toNat + (1 : Nibble).toNat := by decide

/-- Glyph 0 drawn twice at (0, 0). -/
def once : State := execute (.drw 0 1 5) State.reset
theorem witness_DrawTwiceRestores : State.reset.i.toNat + (5 : Nibble).toNat ≤ 4096 ∧
    exec (.drw 0 1 5) State.reset = .next once ∧ once.mem = State.reset.mem ∧ once.i = State.reset.i ∧
    once.getV 0 = State.reset.getV 0 ∧ once.getV 1 = State.reset.getV 1 ∧
    exec (.drw 0 1 5) once = .next (execute (.drw 0 1 5) once) := by
  refine ⟨?_, rfl, rfl, rfl, ?_, ?_, rfl⟩ <;> decide

theorem witness_SkipOnKey : ((r1 5 15).getV 5).toNat = (15 : Fin 16).val ∧ 15 < ((r1 5 16).getV 5).toNat ∧
    (press 15 (r1 5 15)).keys[(15 : Fin 16)] = true := by decide

theorem witness_WaitForKey : (press 9 (press 2 State.reset)).keys[(2 : Fin 16)] = true ∧
    (∀ j : Fin 16, j < 2 → (press 9 (press 2 State.reset)).keys[j] = false) ∧
    (press 0 State.reset).keys[(0 : Fin 16)] = true ∧ ∀ k : Fin 16, State.reset.keys[k] = false := by decide

theorem witness_StallCycleOnlyTicks : (placed 0xF30A State.reset).status = .running ∧
    fetch16 (placed 0xF30A State.reset).mem (placed 0xF30A State.reset).pc = .ok (encode (.ldVxK 3)) ∧
    ∀ k : Fin 16, (placed 0xF30A State.reset).keys[k] = false := by decide

theorem witness_DelayReadSoundWrite : State.reset.status = .running ∧ 1 < ((r1 0 2).getV 0).toNat ∧
    ¬ 1 < ((r1 0 1).getV 0).toNat := by decide

theorem witness_DelayWrite : State.reset.status = .running := by decide

/-- A cycle that completes: `LD VA, 0x2B` at 0x300. -/
def loading : State := placed 0x6A2B State.reset
theorem witness_EveryCycleTicks : loading.status = .running ∧ fetch16 loading.mem loading.pc = .ok 0x6A2B ∧
    decode 0x6A2B = .ok (.ldImm 10 0x2B) ∧ step loading = .next (cycle loading) ∧ (cycle loading).status = .running := by
  refine ⟨rfl, ?_, ?_, rfl, rfl⟩ <;> decide

theorem witness_EncodeOfDecode : decode 0x8124 = .ok (.addReg 1 2) := by decide

theorem witness_DecodeIsTheOpcodeMap : decode 0x8124 = .ok (.addReg 1 2) ∧ decode 0x0000 = .error (.decodeError 0x0000 0) := by
  decide

/-- RET at the last address a word fits: with an empty stack it raises, with one entry it completes. -/
def returning : State := (State.reset.setPc 4094).withFetchWord 16 0x00EE
theorem witness_StepRunsDecoded : returning.status = .running ∧ returning.pc.toNat ≤ 4094 ∧
    decodeBytes (returning.mem.read returning.pc.toNat) (returning.mem.read (returning.pc.toNat + 1)) = .ok .ret ∧
    (execute .ret (returning.setOpcode 0x00EE)).status = .halted ⟨0xFFE, some 0x00EE, .stackUnderflow 0⟩ ∧
    (execute .ret ((returning.setStack returning.stack 1).setOpcode 0x00EE)).status = .running := by
  decide

theorem witness_FetchAndDecodeFaults : (State.reset.setPc 4095).status = .running ∧ 4094 < (State.reset.setPc 4095).pc.toNat ∧
    (placed 0x0123 State.reset).status = .running ∧
    fetch16 (placed 0x0123 State.reset).mem (placed 0x0123 State.reset).pc = .ok 0x0123 ∧
    decode 0x0123 = .error (.decodeError 0x0123 0) := by decide

theorem witness_HaltedAnswersItsRecord :
    (run 0x00EE State.reset).status = .halted ⟨0x300, some 0x00EE, .stackUnderflow 0⟩ := by decide

/-- A fetch fault, a decode fault and an execute fault. -/
theorem witness_FaultsArePrecise : step (State.reset.setPc 4095) = .next (cycle (State.reset.setPc 4095)) ∧
    (cycle (State.reset.setPc 4095)).status = .halted ⟨4095, none, .fetchBounds 4095⟩ ∧
    step (placed 0x0123 State.reset) = .next (run 0x0123 State.reset) ∧
    (run 0x0123 State.reset).status = .halted ⟨0x300, some 0x0123, .decodeError 0x0123 0⟩ ∧
    step (placed 0x00EE State.reset) = .next (run 0x00EE State.reset) ∧
    (run 0x00EE State.reset).status = .halted ⟨0x300, some 0x00EE, .stackUnderflow 0⟩ := by
  refine ⟨rfl, ?_, rfl, ?_, rfl, ?_⟩ <;> decide

theorem witness_OnlyNamedFaults : State.reset.status = .running ∧ exec .ret State.reset = .next (execute .ret State.reset) ∧
    (execute .ret State.reset).status = .halted ⟨0x200, some 0, .stackUnderflow 0⟩ := by
  refine ⟨rfl, rfl, ?_⟩; decide

theorem witness_RunningBlockAlwaysSteps : State.reset.status = .running := by decide

/-- One cycle of each class: normal, skip and wait. -/
theorem witness_PcAfterCycle : pcClass (.ldImm 10 0x2B) = .normal ∧ pcClass (.seImm 3 0) = .skip ∧ pcClass (.ldVxK 3) = .wait ∧
    decode 0x3300 = .ok (.seImm 3 0) ∧ decode 0xF30A = .ok (.ldVxK 3) ∧
    step (placed 0x3300 State.reset) = .next (run 0x3300 State.reset) ∧ (run 0x3300 State.reset).status = .running ∧
    step (placed 0xF30A State.reset) = .next (run 0xF30A State.reset) ∧ (run 0xF30A State.reset).status = .running := by
  refine ⟨?_, ?_, ?_, ?_, ?_, rfl, rfl, rfl, rfl⟩ <;> decide

theorem witness_RegistersKeptUnlessNamed : exec (.ldImm 10 0x2B) State.reset = .next (execute (.ldImm 10 0x2B) State.reset) ∧
    mayWriteReg (.ldImm 10 0x2B) 3 = false := ⟨rfl, by decide⟩

theorem witness_OnlyNamedWriters : exec (.ldImm 10 0x2B) State.reset = .next (execute (.ldImm 10 0x2B) State.reset) ∧
    writesI (.ldImm 10 0x2B) = false ∧ (once.shouldRedraw = true) := ⟨rfl, by decide, by decide⟩

theorem witness_SoundTimerIsNeverRead : exec (.ldVxDT 1) State.reset = .next (execute (.ldVxDT 1) State.reset) := rfl

/-- One entry in use, the slot above it changed. -/
theorem witness_StaleSlotsAreNeverRead :
    (∀ j : Fin 16, j.val < (State.reset.setStack State.reset.stack 1).sp.val →
      (State.reset.stack.set 1 0x310)[j] = (State.reset.setStack State.reset.stack 1).stack[j]) ∧
    exec .ret (State.reset.setStack State.reset.stack 1) = .next (execute .ret (State.reset.setStack State.reset.stack 1)) :=
  ⟨by decide, rfl⟩

theorem witness_StoredWordIsFetched : (State.reset.setPc 4094).pc.toNat ≤ 4094 ∧
    (0 : Nat) ≠ (State.reset.setPc 4094).pc.toNat ∧ (0 : Nat) ≠ (State.reset.setPc 4094).pc.toNat + 1 := by decide

theorem witness_ResetChosenValues : (79 : Nat) < 80 ∧ (80 : Nat) ≤ 80 := by decide

theorem reset_inv : State.reset.Inv :=
  ⟨by decide, by decide, by decide, fun r h => by simp [State.reset] at h⟩

/-- The cycle from reset decodes the word 0x0000 and faults; a placed one completes. -/
theorem witness_StepKeepsInvariant : State.reset.Inv ∧ step State.reset = .next (cycle State.reset) := ⟨reset_inv, rfl⟩

theorem witness_ReachableMeetsInvariant : Reachable ⟨load [0x12, 0x00] State.reset, false⟩ :=
  .event (.load [0x12, 0x00]) Session.start _ .start rfl

theorem witness_LoadCopiesProgram : (List.replicate 3584 (0 : Byte)).length ≤ 3584 ∧
    3584 < (List.replicate 3585 (0 : Byte)).length ∧ State.reset.mem.wf := by
  refine ⟨?_, ?_, by decide⟩
  · rw [List.length_replicate]
  · rw [List.length_replicate]; omega

theorem witness_HostEventsBetweenCycles : Session.start.cycled = false ∧ Session.start.machine.status = .running ∧
    step Session.start.machine = .next (cycle Session.start.machine) ∧ (⟨State.reset, true⟩ : Session).cycled = true :=
  ⟨rfl, rfl, rfl, rfl⟩

/-- Each event from a session that meets the invariant answers a next session, a load of 3585 bytes too. -/
theorem witness_HostEventKeepsInvariant : Session.start.machine.Inv ∧
    hostStep .reset Session.start = .next Session.start ∧
    hostStep (.load [0x12, 0x00]) Session.start = .next ⟨load [0x12, 0x00] State.reset, false⟩ ∧
    hostStep (.load (List.replicate 3585 0)) Session.start = .next ⟨load (List.replicate 3585 0) State.reset, false⟩ ∧
    hostStep .cycle Session.start = .next ⟨cycle State.reset, true⟩ ∧
    hostStep .redrawClear Session.start = .next Session.start :=
  ⟨reset_inv, rfl, rfl, rfl, rfl, rfl⟩

end Sys2Proof.Tests
end

section
/-! PROOFS. Control flow (40_control_flow): the jump 1NNN and the skips 3XNN and 4XNN, with the lemmas on families,
pc classes, skips and the fetch bound that the other control-flow instructions share. -/

namespace Sys2Proof.Proofs

open Sys2Proof.Machine Sys2Proof.Claims

/-! ### Decoding by family (30_encoding R82, R84) -/

/-- A row that fixes the family alone needs the decoder's answer on that family alone. -/
theorem encoding_of_family {pattern : Word} {f : Word → Instr}
    (h : ∀ w, family w = family pattern → decode w = .ok (f w)) : Encoding 0xF000 pattern f :=
  fun w hw => h w (family_of_and_F000 hw)

theorem decode_family1 {w : Word} (h : family w = 0x1#4) : decode w = .ok (.jp (fieldNNN w)) := by
  simp [decode, h]

theorem decode_family3 {w : Word} (h : family w = 0x3#4) : decode w = .ok (.seImm (fieldX w) (fieldNN w)) := by
  simp [decode, h]

theorem decode_family4 {w : Word} (h : family w = 0x4#4) : decode w = .ok (.sneImm (fieldX w) (fieldNN w)) := by
  simp [decode, h]

/-! ### The pc (30_encoding R83, 10_state R25) -/

theorem setsOwnPc_of_pcClass {i : Instr} (h : pcClass i ≠ .normal) : SetsOwnPc i := pcUpdate_other h

/-- A skip writes `pc` alone: one word further when the condition holds (R103). -/
theorem skipIf_eq (c : Bool) (s : State) :
    skipIf c s = { s with pc := if c then s.pc + 4 else s.pc + 2 } := by
  cases c <;> rfl

/-- Fetching from a known address above 4094 faults with that address. -/
theorem fetch16_error_at {m : Memory} {pc a : Word} (h : pc = a) (ha : 4094 < a.toNat) :
    fetch16 m pc = .error (.fetchBounds a) := by
  subst h; exact fetch16_error ha

/-! ### Execute -/

theorem exec_jp (nnn : Addr) (s : State) : exec (.jp nnn) s = .next (s.setPc (zextAddr nnn)) := rfl

theorem exec_seImm (x : Reg) (nn : Byte) (s : State) :
    exec (.seImm x nn) s = .next { s with pc := if s.getV x = nn then s.pc + 4 else s.pc + 2 } := by
  simp only [exec, execSeImm, skipIf_eq, beq_iff_eq]

theorem exec_sneImm (x : Reg) (nn : Byte) (s : State) :
    exec (.sneImm x nn) s = .next { s with pc := if s.getV x ≠ nn then s.pc + 4 else s.pc + 2 } := by
  simp only [exec, execSneImm, skipIf_eq, bne_iff_ne]

/-- Zero extension keeps the value, so it fixes the whole word (30_encoding R73). -/
theorem zextAddr_eq_of_toNat {nnn : Addr} {a : Word} (h : nnn.toNat = a.toNat) : zextAddr nnn = a :=
  BitVec.eq_of_toNat_eq ((zextAddr_toNat nnn).trans h)

/-! ### The obligations -/

/-- Settles O1: family 1 decodes to JP, and its step is one write of `pc`, out of the fetch's range at 0xFFF. -/
theorem jumpSetsPc : Obligations.JumpSetsPc := by
  refine ⟨encoding_of_family fun _ => decode_family1, fun nnn => ?_⟩
  refine ⟨setsOwnPc_of_pcClass (by simp [pcClass]), fun s => ?_⟩
  refine ⟨s.setPc (zextAddr nnn), exec_jp nnn s, zextAddr_toNat nnn, rfl, fun h => ?_⟩
  exact fetch16_error_at (zextAddr_eq_of_toNat h) (by decide)

/-- Settles O2: families 3 and 4 decode to SE and SNE, whose steps are skips; 0xFFC + 4 is out of the fetch's range. -/
theorem skipOnImmediate : Obligations.SkipOnImmediate := by
  refine ⟨encoding_of_family fun _ => decode_family3, encoding_of_family fun _ => decode_family4, fun x nn => ?_⟩
  refine ⟨setsOwnPc_of_pcClass (by simp [pcClass]), setsOwnPc_of_pcClass (by simp [pcClass]), fun s => ?_⟩
  refine ⟨exec_seImm x nn s, exec_sneImm x nn s, fun h => ?_⟩
  have target : s.pc + 4 = 0x1000 := by rw [h]; decide
  exact fetch16_error_at target (by decide)

end Sys2Proof.Proofs
end

section
/-! PROOFS. ALU (41_alu): the load 6XNN, the flagless sum 7XNN and the copy 8XY0, with the lemmas on rows that also fix
the last nibble and on the normal pc class that the other ALU instructions share. -/

namespace Sys2Proof.Proofs

open Sys2Proof.Machine Sys2Proof.Claims

/-! ### Decoding by family and last nibble (30_encoding R82, R84, R88) -/

/-- A row that fixes the family and the last nibble needs the decoder's answer on those two alone. -/
theorem encoding_of_family_fieldN {pattern : Word} {f : Word → Instr}
    (h : ∀ w, family w = family pattern → fieldN w = fieldN pattern → decode w = .ok (f w)) :
    Encoding 0xF00F pattern f := fun w hw => by
  obtain ⟨hfam, hn⟩ := fields_of_and_F00F hw
  exact h w hfam hn

/-- The decoder hands every word of family 8 to its own selector. -/
theorem decode_family8 {w : Word} (h : family w = 0x8#4) : decode w = decodeFamily8 w := by
  simp [decode, h]

theorem decode_family6 {w : Word} (h : family w = 0x6#4) : decode w = .ok (.ldImm (fieldX w) (fieldNN w)) := by
  simp [decode, h]

theorem decode_family7 {w : Word} (h : family w = 0x7#4) : decode w = .ok (.addImm (fieldX w) (fieldNN w)) := by
  simp [decode, h]

theorem decode_ldReg {w : Word} (h : family w = 0x8#4) (hn : fieldN w = 0x0#4) :
    decode w = .ok (.ldReg (fieldX w) (fieldY w)) := by
  rw [decode_family8 h]; simp [decodeFamily8, hn]

/-! ### The pc (30_encoding R83) -/

theorem advances_of_pcClass {i : Instr} (h : pcClass i = .normal) : Advances i := pcUpdate_normal h

/-! ### Execute -/

theorem exec_ldImm (x : Reg) (nn : Byte) (s : State) : exec (.ldImm x nn) s = .next (s.setV x nn) := rfl

/-- The exact sum, truncated once: the wrap of R121. -/
theorem exec_addImm (x : Reg) (nn : Byte) (s : State) :
    exec (.addImm x nn) s = .next (s.setV x (trunc8 ((s.getV x).toNat + nn.toNat))) := by
  simp only [exec, execAddImm, trunc8, BitVec.add_def]

theorem exec_ldReg (x y : Reg) (s : State) : exec (.ldReg x y) s = .next (s.setV x (s.getV y)) := rfl

/-! ### The obligation -/

/-- Settles O8: families 6 and 7, and family 8 with last nibble 0, decode to LD, ADD and LD; each step is one write of
V[X]. -/
theorem loadAddCopy : Obligations.LoadAddCopy := by
  refine ⟨encoding_of_family fun _ => decode_family6, encoding_of_family fun _ => decode_family7,
    encoding_of_family_fieldN fun _ => decode_ldReg, fun x y nn => ?_⟩
  refine ⟨advances_of_pcClass (by simp [pcClass]), advances_of_pcClass (by simp [pcClass]),
    advances_of_pcClass (by simp [pcClass]), fun s => ?_⟩
  exact ⟨exec_ldImm x nn s, exec_addImm x nn s, exec_ldReg x y s⟩

end Sys2Proof.Proofs
end

section
/-! PROOFS. The index register (42_index_memory): the loads ANNN and FX29, with the lemmas on rows that also fix the low
byte that the other instructions of families E and F share. -/

namespace Sys2Proof.Proofs

open Sys2Proof.Machine Sys2Proof.Claims

/-! ### Decoding by family and low byte (30_encoding R82, R84, R90) -/

/-- A row that fixes the family and the low byte needs the decoder's answer on those two alone. -/
theorem encoding_of_family_fieldNN {pattern : Word} {f : Word → Instr}
    (h : ∀ w, family w = family pattern → fieldNN w = fieldNN pattern → decode w = .ok (f w)) :
    Encoding 0xF0FF pattern f := fun w hw => by
  obtain ⟨hfam, hnn⟩ := fields_of_and_F0FF hw
  exact h w hfam hnn

/-- The decoder hands every word of family F to its own selector. -/
theorem decode_familyF {w : Word} (h : family w = 0xF#4) : decode w = decodeFamilyF w := by
  simp [decode, h]

theorem decode_familyA {w : Word} (h : family w = 0xA#4) : decode w = .ok (.ldI (fieldNNN w)) := by
  simp [decode, h]

theorem decode_ldF {w : Word} (h : family w = 0xF#4) (hnn : fieldNN w = 0x29#8) :
    decode w = .ok (.ldF (fieldX w)) := by
  rw [decode_familyF h]; simp [decodeFamilyF, hnn]

/-! ### Execute -/

theorem exec_ldI (nnn : Addr) (s : State) : exec (.ldI nnn) s = .next (s.setI (zextAddr nnn)) := rfl

theorem exec_ldF (x : Reg) (s : State) :
    exec (.ldF x) s = .next (s.setI (trunc16 ((s.getV x).toNat * 5))) := rfl

/-- Five times a byte is at most 1275, so the truncation of R152 never wraps. -/
theorem trunc16_byte_mul_five (b : Byte) : (trunc16 (b.toNat * 5)).toNat = b.toNat * 5 := by
  have bound : b.toNat * 5 < 65536 := by have := b.isLt; omega
  rw [trunc16_toNat, Nat.mod_eq_of_lt bound]

/-! ### The obligation -/

/-- Settles O14: family A, and family F with low byte 0x29, decode to the two loads; each step is one write of I, whose
value the word holds exactly. -/
theorem loadIndex : Obligations.LoadIndex := by
  refine ⟨encoding_of_family fun _ => decode_familyA, encoding_of_family_fieldNN fun _ => decode_ldF, fun nnn x => ?_⟩
  refine ⟨advances_of_pcClass (by simp [pcClass]), advances_of_pcClass (by simp [pcClass]), fun s => ?_⟩
  refine ⟨s.setI (zextAddr nnn), s.setI (trunc16 ((s.getV x).toNat * 5)), exec_ldI nnn s, exec_ldF x s, ?_⟩
  exact ⟨zextAddr_toNat nnn, trunc16_byte_mul_five (s.getV x), rfl, rfl⟩

end Sys2Proof.Proofs
end

section
/-! PROOFS. Display (43_display): the clear 00E0. -/

namespace Sys2Proof.Proofs

open Sys2Proof.Machine Sys2Proof.Claims

theorem clearFb_cell (cx : Fin 64) (cy : Fin 32) : clearFb[cx][cy] = false := by
  simp only [clearFb, Fin.getElem_fin, Vector.getElem_replicate]

/-! ### Execute -/

theorem exec_cls (s : State) : exec .cls s = .next ((s.setFb clearFb).setRedraw true) := rfl

/-! ### The obligation -/

/-- Settles O21: the one fixed word decodes to CLS, whose step is one write of the blank framebuffer and one of the redraw
flag. -/
theorem clearScreen : Obligations.ClearScreen := by
  refine ⟨by decide, advances_of_pcClass (by simp [pcClass]), fun s => ?_⟩
  exact ⟨(s.setFb clearFb).setRedraw true, exec_cls s, clearFb_cell, rfl⟩

end Sys2Proof.Proofs
end

section
/-! PROOFS. Keys and timers (44_keys_timers): the delay read FX07 and the sound write FX18, with the lemmas on the end of a
completing cycle that the other timer instructions share. -/

namespace Sys2Proof.Proofs

open Sys2Proof.Machine Sys2Proof.Claims

/-! ### Decoding (30_encoding R90) -/

theorem decode_ldVxDT {w : Word} (h : family w = 0xF#4) (hnn : fieldNN w = 0x07#8) :
    decode w = .ok (.ldVxDT (fieldX w)) := by
  rw [decode_familyF h]; simp [decodeFamilyF, hnn]

theorem decode_ldSTVx {w : Word} (h : family w = 0xF#4) (hnn : fieldNN w = 0x18#8) :
    decode w = .ok (.ldSTVx (fieldX w)) := by
  rw [decode_familyF h]; simp [decodeFamilyF, hnn]

/-! ### Execute -/

theorem exec_ldVxDT (x : Reg) (s : State) : exec (.ldVxDT x) s = .next (s.setV x s.dt) := rfl

theorem exec_ldSTVx (x : Reg) (s : State) : exec (.ldSTVx x) s = .next (s.setST (s.getV x)) := rfl

/-! ### The end of the cycle (30_encoding R80, R83, 60_exceptions R220, R222) -/

theorem completeCycle_normal {i : Instr} {t : State} (hi : pcClass i = .normal) (ht : t.status = .running) :
    completeCycle i (.next t) = .next (timerTick (t.setPc (t.pc + 2))) := by
  rw [completeCycle_running ht, pcUpdate_normal hi]

@[simp] theorem timerTick_getV (s : State) (j : Reg) : (timerTick s).getV j = s.getV j := rfl

theorem timerTick_dt_toNat (s : State) : (timerTick s).dt.toNat = s.dt.toNat - 1 := tickDown_toNat s.dt

theorem timerTick_st_toNat (s : State) : (timerTick s).st.toNat = s.st.toNat - 1 := tickDown_toNat s.st

/-- The tick stands between ST and the sound output, so ST 1 is already silent (R195). -/
theorem timerTick_soundActive_iff (s : State) : (timerTick s).soundActive = true ↔ 1 < s.st.toNat := by
  rw [State.soundActive, decide_eq_true_iff, timerTick_st_toNat]
  exact Nat.sub_pos_iff_lt

/-- FX07 at the end of its cycle: the register keeps the DT from before the tick (R192). -/
theorem completeCycle_ldVxDT {s : State} (x : Reg) (hs : s.status = .running) :
    ∃ t, completeCycle (.ldVxDT x) (exec (.ldVxDT x) s) = .next t ∧
      t.getV x = s.dt ∧ t.dt.toNat = s.dt.toNat - 1 := by
  have running : (s.setV x s.dt).status = .running := hs
  rw [exec_ldVxDT, completeCycle_normal (by simp [pcClass]) running]
  exact ⟨_, rfl, by simp, timerTick_dt_toNat _⟩

/-- FX18 at the end of its cycle: the value written has been ticked once (R195). -/
theorem completeCycle_ldSTVx {s : State} (x : Reg) (hs : s.status = .running) :
    ∃ u, completeCycle (.ldSTVx x) (exec (.ldSTVx x) s) = .next u ∧
      u.st.toNat = (s.getV x).toNat - 1 ∧ (u.soundActive = true ↔ 1 < (s.getV x).toNat) := by
  have running : (s.setST (s.getV x)).status = .running := hs
  rw [exec_ldSTVx, completeCycle_normal (by simp [pcClass]) running]
  exact ⟨_, rfl, timerTick_st_toNat _, timerTick_soundActive_iff _⟩

/-! ### The obligation -/

/-- Settles O28: family F with low bytes 0x07 and 0x18 decodes to the two loads; each step is one write, which the tick of
the same cycle follows. -/
theorem delayReadSoundWrite : Obligations.DelayReadSoundWrite := by
  refine ⟨encoding_of_family_fieldNN fun _ => decode_ldVxDT, encoding_of_family_fieldNN fun _ => decode_ldSTVx,
    fun x => ?_⟩
  refine ⟨advances_of_pcClass (by simp [pcClass]), advances_of_pcClass (by simp [pcClass]), fun s => ?_⟩
  refine ⟨exec_ldVxDT x s, exec_ldSTVx x s, fun hs => ?_⟩
  obtain ⟨t, ht, hread, hdt⟩ := completeCycle_ldVxDT x hs
  obtain ⟨u, hu, hst, hsound⟩ := completeCycle_ldSTVx x hs
  exact ⟨t, u, ht, hu, hread, hdt, hst, hsound⟩

end Sys2Proof.Proofs
end

section
/-! PROOFS. Encoding (30_encoding): the decoder and the encoder are inverse to each other, and the words a row of the
opcode map accepts are those of its instructions. -/

namespace Sys2Proof.Proofs

open Sys2Proof.Machine Sys2Proof.Claims

/-! ### Decoding an assembled word (R82) -/

/-- Decoding the word of an instruction gives the instruction: the family of the assembled word selects the row, the
other fields are its operands. -/
theorem decode_encode (i : Instr) : decode (encode i) = .ok i := by
  cases i with
  | cls | ret => decide
  | jp nnn | call nnn | ldI nnn | jpV0 nnn => simp [encode, decode]
  | seImm x nn | sneImm x nn | ldImm x nn | addImm x nn | rnd x nn => simp [encode, decode]
  | seReg x y | sneReg x y => simp [encode, decode, decodeZeroNibble]
  | ldReg x y | orReg x y | andReg x y | xorReg x y | addReg x y | subReg x y | shr x y | subnReg x y | shl x y =>
    simp [encode, decode, decodeFamily8]
  | drw x y n => simp [encode, decode]
  | skp x | sknp x => simp [encode, decode, decodeFamilyE]
  | ldVxDT x | ldVxK x | ldDTVx x | ldSTVx x | addI x | ldF x | ldB x | ldMemVx x | ldVxMem x =>
    simp [encode, decode, decodeFamilyF]

/-- A word is determined by its family and NNN. -/
theorem wordAddr_of_family {w : Word} {p : Nibble} (h : family w = p) : wordAddr p (fieldNNN w) = w := by
  rw [← h]; exact wordAddr_fields w

/-- A word is determined by its family, X and NN. -/
theorem wordRegByte_of_family {w : Word} {p : Nibble} (h : family w = p) :
    wordRegByte p (fieldX w) (fieldNN w) = w := by
  rw [← h]; exact wordRegByte_fields w

theorem wordRegByte_of_fields {w : Word} {p : Nibble} {nn : Byte} (h : family w = p) (hnn : fieldNN w = nn) :
    wordRegByte p (fieldX w) nn = w := by
  rw [← hnn]; exact wordRegByte_of_family h

/-- A word is determined by its family, X, Y and N. -/
theorem wordRegReg_of_family {w : Word} {p : Nibble} (h : family w = p) :
    wordRegReg p (fieldX w) (fieldY w) (fieldN w) = w := by
  rw [← h]; exact wordRegReg_fields w

theorem wordRegReg_of_fields {w : Word} {p n : Nibble} (h : family w = p) (hn : fieldN w = n) :
    wordRegReg p (fieldX w) (fieldY w) n = w := by
  rw [← hn]; exact wordRegReg_of_family h

/-! ### Assembling a decoded instruction, by the selector that decoded it -/

theorem encode_of_decodeFamily0 {w : Word} {i : Instr} (h : decodeFamily0 w = .ok i) : encode i = w := by
  simp only [decodeFamily0, illegal] at h
  split at h
  · next hw => cases h; exact hw.symm
  · split at h
    · next hw => cases h; exact hw.symm
    · cases h

theorem eq_of_decodeZeroNibble {w : Word} {i j : Instr} (h : decodeZeroNibble j w = .ok i) :
    j = i ∧ fieldN w = 0x0#4 := by
  simp only [decodeZeroNibble, illegal] at h
  split at h
  · next hn => cases h; exact ⟨rfl, hn⟩
  · cases h

theorem encode_of_decodeFamily8 {w : Word} {i : Instr} (hf : family w = 0x8#4) (h : decodeFamily8 w = .ok i) :
    encode i = w := by
  simp only [decodeFamily8, illegal] at h
  split at h <;> cases h <;> exact wordRegReg_of_fields hf ‹_›

theorem encode_of_decodeFamilyE {w : Word} {i : Instr} (hf : family w = 0xE#4) (h : decodeFamilyE w = .ok i) :
    encode i = w := by
  simp only [decodeFamilyE, illegal] at h
  split at h <;> cases h <;> exact wordRegByte_of_fields hf ‹_›

theorem encode_of_decodeFamilyF {w : Word} {i : Instr} (hf : family w = 0xF#4) (h : decodeFamilyF w = .ok i) :
    encode i = w := by
  simp only [decodeFamilyF, illegal] at h
  split at h <;> cases h <;> exact wordRegByte_of_fields hf ‹_›

/-- Encoding what a word decodes to gives the word: by family, each word is put together again from its fields. -/
theorem encode_of_decode {w : Word} {i : Instr} (h : decode w = .ok i) : encode i = w := by
  unfold decode at h
  split at h
  case h_1 => exact encode_of_decodeFamily0 h
  case h_2 hf | h_3 hf | h_11 hf | h_12 hf => cases h; exact wordAddr_of_family hf
  case h_4 hf | h_5 hf | h_7 hf | h_8 hf | h_13 hf => cases h; exact wordRegByte_of_family hf
  case h_6 hf | h_10 hf => obtain ⟨rfl, hn⟩ := eq_of_decodeZeroNibble h; exact wordRegReg_of_fields hf hn
  case h_9 hf => exact encode_of_decodeFamily8 hf h
  case h_14 hf => cases h; exact wordRegReg_of_family hf
  case h_15 hf => exact encode_of_decodeFamilyE hf h
  case h_16 hf => exact encode_of_decodeFamilyF hf h
  case h_17 => cases h

/-! ### The rows of the opcode map (R82, R86) -/

/-- A row that fixes a whole word. -/
theorem encoding_word (i : Instr) : Encoding 0xFFFF (encode i) (fun _ => i) := fun w hw => by
  have assembled : w = encode i := (and_FFFF w).symm.trans hw
  rw [assembled]; exact decode_encode i

/-- A row of format ADDR (R72): its words are those of its instruction. -/
theorem encoding_addr {p : Nibble} {f : Addr → Instr} (h : ∀ nnn, encode (f nnn) = wordAddr p nnn) :
    Encoding 0xF000 (wordAddr p 0) (fun w => f (fieldNNN w)) := fun w hw => by
  have assembled : encode (f (fieldNNN w)) = w := by rw [h, wordAddr_of_family ((and_F000_iff w p).mp hw)]
  simpa only [assembled] using decode_encode (f (fieldNNN w))

/-- A row of format REGIMM (R72). -/
theorem encoding_regImm {p : Nibble} {f : Reg → Byte → Instr} (h : ∀ x nn, encode (f x nn) = wordRegByte p x nn) :
    Encoding 0xF000 (wordAddr p 0) (fun w => f (fieldX w) (fieldNN w)) := fun w hw => by
  have assembled : encode (f (fieldX w) (fieldNN w)) = w := by
    rw [h, wordRegByte_of_family ((and_F000_iff w p).mp hw)]
  simpa only [assembled] using decode_encode (f (fieldX w) (fieldNN w))

/-- A row of format DRAW (R72). -/
theorem encoding_draw {p : Nibble} {f : Reg → Reg → Nibble → Instr}
    (h : ∀ x y n, encode (f x y n) = wordRegReg p x y n) :
    Encoding 0xF000 (wordAddr p 0) (fun w => f (fieldX w) (fieldY w) (fieldN w)) := fun w hw => by
  have assembled : encode (f (fieldX w) (fieldY w) (fieldN w)) = w := by
    rw [h, wordRegReg_of_family ((and_F000_iff w p).mp hw)]
  simpa only [assembled] using decode_encode (f (fieldX w) (fieldY w) (fieldN w))

/-- A row of format REGREG (R72), which fixes the last nibble too. -/
theorem encoding_regReg {p n : Nibble} {f : Reg → Reg → Instr} (h : ∀ x y, encode (f x y) = wordRegReg p x y n) :
    Encoding 0xF00F (wordRegReg p 0 0 n) (fun w => f (fieldX w) (fieldY w)) := fun w hw => by
  obtain ⟨hf, hn⟩ := (and_F00F_iff w p n).mp hw
  have assembled : encode (f (fieldX w) (fieldY w)) = w := by rw [h, wordRegReg_of_fields hf hn]
  simpa only [assembled] using decode_encode (f (fieldX w) (fieldY w))

/-- A row of format REGSUB (R72), which fixes the low byte too. -/
theorem encoding_regSub {p : Nibble} {nn : Byte} {f : Reg → Instr} (h : ∀ x, encode (f x) = wordRegByte p x nn) :
    Encoding 0xF0FF (wordRegByte p 0 nn) (fun w => f (fieldX w)) := fun w hw => by
  obtain ⟨hf, hnn⟩ := (and_F0FF_iff w p nn).mp hw
  have assembled : encode (f (fieldX w)) = w := by rw [h, wordRegByte_of_fields hf hnn]
  simpa only [assembled] using decode_encode (f (fieldX w))

/-- The words of a row decode. -/
def RowDecodes (r : OpcodeRow) : Prop := ∃ f, Encoding r.mask r.pattern f

theorem rowDecodes_word (m : String) (i : Instr) : RowDecodes ⟨m, 0xFFFF, encode i⟩ := ⟨_, encoding_word i⟩

theorem rowDecodes_addr (m : String) {p : Nibble} (f : Addr → Instr) (h : ∀ nnn, encode (f nnn) = wordAddr p nnn) :
    RowDecodes ⟨m, 0xF000, wordAddr p 0⟩ := ⟨_, encoding_addr h⟩

theorem rowDecodes_regImm (m : String) {p : Nibble} (f : Reg → Byte → Instr)
    (h : ∀ x nn, encode (f x nn) = wordRegByte p x nn) : RowDecodes ⟨m, 0xF000, wordAddr p 0⟩ := ⟨_, encoding_regImm h⟩

theorem rowDecodes_regReg (m : String) {p n : Nibble} (f : Reg → Reg → Instr)
    (h : ∀ x y, encode (f x y) = wordRegReg p x y n) : RowDecodes ⟨m, 0xF00F, wordRegReg p 0 0 n⟩ :=
  ⟨_, encoding_regReg h⟩

theorem rowDecodes_regSub (m : String) {p : Nibble} {nn : Byte} (f : Reg → Instr)
    (h : ∀ x, encode (f x) = wordRegByte p x nn) : RowDecodes ⟨m, 0xF0FF, wordRegByte p 0 nn⟩ := ⟨_, encoding_regSub h⟩

theorem rowsLow_decode : ∀ r ∈ rowsLow, RowDecodes r := by
  simp only [rowsLow, List.forall_mem_cons]
  exact ⟨rowDecodes_word _ .cls, rowDecodes_word _ .ret, rowDecodes_addr (p := 0x1) _ .jp fun _ => rfl,
    rowDecodes_addr (p := 0x2) _ .call fun _ => rfl, rowDecodes_regImm (p := 0x3) _ .seImm fun _ _ => rfl,
    rowDecodes_regImm (p := 0x4) _ .sneImm fun _ _ => rfl,
    rowDecodes_regReg (p := 0x5) (n := 0x0) _ .seReg fun _ _ => rfl,
    rowDecodes_regImm (p := 0x6) _ .ldImm fun _ _ => rfl, rowDecodes_regImm (p := 0x7) _ .addImm fun _ _ => rfl,
    List.forall_mem_nil _⟩

theorem rowsAlu_decode : ∀ r ∈ rowsAlu, RowDecodes r := by
  simp only [rowsAlu, List.forall_mem_cons]
  exact ⟨rowDecodes_regReg (p := 0x8) (n := 0x0) _ .ldReg fun _ _ => rfl,
    rowDecodes_regReg (p := 0x8) (n := 0x1) _ .orReg fun _ _ => rfl,
    rowDecodes_regReg (p := 0x8) (n := 0x2) _ .andReg fun _ _ => rfl,
    rowDecodes_regReg (p := 0x8) (n := 0x3) _ .xorReg fun _ _ => rfl,
    rowDecodes_regReg (p := 0x8) (n := 0x4) _ .addReg fun _ _ => rfl,
    rowDecodes_regReg (p := 0x8) (n := 0x5) _ .subReg fun _ _ => rfl,
    rowDecodes_regReg (p := 0x8) (n := 0x6) _ .shr fun _ _ => rfl,
    rowDecodes_regReg (p := 0x8) (n := 0x7) _ .subnReg fun _ _ => rfl,
    rowDecodes_regReg (p := 0x8) (n := 0xE) _ .shl fun _ _ => rfl,
    rowDecodes_regReg (p := 0x9) (n := 0x0) _ .sneReg fun _ _ => rfl, List.forall_mem_nil _⟩

theorem rowsMid_decode : ∀ r ∈ rowsMid, RowDecodes r := by
  simp only [rowsMid, List.forall_mem_cons]
  exact ⟨rowDecodes_addr (p := 0xA) _ .ldI fun _ => rfl, rowDecodes_addr (p := 0xB) _ .jpV0 fun _ => rfl,
    rowDecodes_regImm (p := 0xC) _ .rnd fun _ _ => rfl, ⟨_, encoding_draw (p := 0xD) (f := .drw) fun _ _ _ => rfl⟩,
    List.forall_mem_nil _⟩

theorem rowsHigh_decode : ∀ r ∈ rowsHigh, RowDecodes r := by
  simp only [rowsHigh, List.forall_mem_cons]
  exact ⟨rowDecodes_regSub (p := 0xE) (nn := 0x9E) _ .skp fun _ => rfl,
    rowDecodes_regSub (p := 0xE) (nn := 0xA1) _ .sknp fun _ => rfl,
    rowDecodes_regSub (p := 0xF) (nn := 0x07) _ .ldVxDT fun _ => rfl,
    rowDecodes_regSub (p := 0xF) (nn := 0x0A) _ .ldVxK fun _ => rfl,
    rowDecodes_regSub (p := 0xF) (nn := 0x15) _ .ldDTVx fun _ => rfl,
    rowDecodes_regSub (p := 0xF) (nn := 0x18) _ .ldSTVx fun _ => rfl,
    rowDecodes_regSub (p := 0xF) (nn := 0x1E) _ .addI fun _ => rfl,
    rowDecodes_regSub (p := 0xF) (nn := 0x29) _ .ldF fun _ => rfl,
    rowDecodes_regSub (p := 0xF) (nn := 0x33) _ .ldB fun _ => rfl,
    rowDecodes_regSub (p := 0xF) (nn := 0x55) _ .ldMemVx fun _ => rfl,
    rowDecodes_regSub (p := 0xF) (nn := 0x65) _ .ldVxMem fun _ => rfl, List.forall_mem_nil _⟩

/-- The words of every row of the opcode map decode. -/
theorem opcodeTable_decode {r : OpcodeRow} (h : r ∈ opcodeTable) : RowDecodes r := by
  simp only [opcodeTable, List.mem_append] at h
  obtain ((h | h) | h) | h := h
  · exact rowsLow_decode r h
  · exact rowsAlu_decode r h
  · exact rowsMid_decode r h
  · exact rowsHigh_decode r h

/-- A word some row accepts decodes. -/
theorem decode_of_accepts {w : Word} {r : OpcodeRow} (hr : r ∈ opcodeTable) (h : r.accepts w = true) :
    ∃ i, decode w = .ok i := by
  obtain ⟨f, hf⟩ := opcodeTable_decode hr
  exact ⟨f w, hf w (by simpa [OpcodeRow.accepts] using h)⟩

/-- The row of every instruction's mnemonic accepts its word. -/
theorem ownRow (i : Instr) : Laws.OwnRow.Statement i := by
  cases i with
  | cls => exact Laws.OwnRow.cls
  | ret => exact Laws.OwnRow.ret
  | jp nnn => exact Laws.OwnRow.jp nnn
  | call nnn => exact Laws.OwnRow.call nnn
  | seImm x nn => exact Laws.OwnRow.seImm x nn
  | sneImm x nn => exact Laws.OwnRow.sneImm x nn
  | seReg x y => exact Laws.OwnRow.seReg x y
  | ldImm x nn => exact Laws.OwnRow.ldImm x nn
  | addImm x nn => exact Laws.OwnRow.addImm x nn
  | ldReg x y => exact Laws.OwnRow.ldReg x y
  | orReg x y => exact Laws.OwnRow.orReg x y
  | andReg x y => exact Laws.OwnRow.andReg x y
  | xorReg x y => exact Laws.OwnRow.xorReg x y
  | addReg x y => exact Laws.OwnRow.addReg x y
  | subReg x y => exact Laws.OwnRow.subReg x y
  | shr x y => exact Laws.OwnRow.shr x y
  | subnReg x y => exact Laws.OwnRow.subnReg x y
  | shl x y => exact Laws.OwnRow.shl x y
  | sneReg x y => exact Laws.OwnRow.sneReg x y
  | ldI nnn => exact Laws.OwnRow.ldI nnn
  | jpV0 nnn => exact Laws.OwnRow.jpV0 nnn
  | rnd x nn => exact Laws.OwnRow.rnd x nn
  | drw x y n => exact Laws.OwnRow.drw x y n
  | skp x => exact Laws.OwnRow.skp x
  | sknp x => exact Laws.OwnRow.sknp x
  | ldVxDT x => exact Laws.OwnRow.ldVxDT x
  | ldVxK x => exact Laws.OwnRow.ldVxK x
  | ldDTVx x => exact Laws.OwnRow.ldDTVx x
  | ldSTVx x => exact Laws.OwnRow.ldSTVx x
  | addI x => exact Laws.OwnRow.addI x
  | ldF x => exact Laws.OwnRow.ldF x
  | ldB x => exact Laws.OwnRow.ldB x
  | ldMemVx x => exact Laws.OwnRow.ldMemVx x
  | ldVxMem x => exact Laws.OwnRow.ldVxMem x

/-- In a list whose members exclude each other, a filter that keeps one member keeps nothing else. -/
theorem filter_eq_singleton {α : Type} {R : α → α → Prop} {p : α → Bool} {l : List α} (hl : l.Pairwise R)
    (excl : ∀ a b, p a = true → p b = true → ¬ R a b) {r : α} (hr : r ∈ l) (hp : p r = true) : l.filter p = [r] := by
  have hmem : r ∈ l.filter p := List.mem_filter.mpr ⟨hr, hp⟩
  have hpair : (l.filter p).Pairwise R := hl.filter p
  match hfilter : l.filter p with
  | [] => rw [hfilter] at hmem; cases hmem
  | [a] => rw [hfilter] at hmem; rw [List.mem_singleton.mp hmem]
  | a :: b :: rest =>
    have keeps : ∀ c ∈ l.filter p, p c = true := fun c hc => (List.mem_filter.mp hc).2
    rw [hfilter] at hpair keeps
    exact absurd (List.rel_of_pairwise_cons hpair (by simp)) (excl a b (keeps a (by simp)) (keeps b (by simp)))

/-- The row that accepts a word is the only one. -/
theorem filter_accepts {w : Word} {r : OpcodeRow} (hr : r ∈ opcodeTable) (h : r.accepts w = true) :
    opcodeTable.filter (fun q => q.accepts w) = [r] :=
  filter_eq_singleton opcodeTable_disjoint (fun _ _ ha hb differ => differ (accepts_agree ha hb)) hr h

/-! ### The obligations -/

/-- Settles O31: every instruction's word decodes to it. -/
theorem decodeOfEncode : Obligations.DecodeOfEncode := decode_encode

/-- Settles O32: every legal word is its instruction's word. -/
theorem encodeOfDecode : Obligations.EncodeOfDecode := fun _ _ => encode_of_decode

/-- Settles O33: a word that decodes is the word of its instruction, whose own row accepts it, and rows exclude each
other; a word that some row accepts decodes, so one that does not decode is accepted by none. -/
theorem decodeIsTheOpcodeMap : Obligations.DecodeIsTheOpcodeMap := by
  intro w
  refine ⟨fun i hi => ?_, fun e he => ⟨?_, decode_error he⟩⟩
  · obtain ⟨r, hr, hname, hacc⟩ := ownRow i
    rw [encode_of_decode hi] at hacc
    exact ⟨r, filter_accepts hr hacc, hname⟩
  · refine List.filter_eq_nil_iff.mpr fun r hr hacc => ?_
    obtain ⟨i, hi⟩ := decode_of_accepts hr hacc
    rw [he] at hi; cases hi

/-- Settles O34: the seven words are words of the instructions named; the other two are rejected. -/
theorem wordsDecode : Obligations.WordsDecode :=
  ⟨decode_encode .cls, decode_encode (.jp 0x234), decode_encode (.ldImm 0xA 0x2B), decode_encode (.addReg 1 2),
    decode_encode (.drw 0 1 5), decode_encode (.skp 5), decode_encode (.ldVxMem 2), by decide, by decide⟩

end Sys2Proof.Proofs
end

section
/-! PROOFS. Control flow (40_control_flow), the rest: the register skips 5XY0 and 9XY0, the jump BNNN, the call 2NNN and
the return 00EE, and the cycles of a call and its return. -/

namespace Sys2Proof.Proofs

open Sys2Proof.Machine Sys2Proof.Claims

/-! ### Decoding (30_encoding R87) -/

/-- Families 5 and 9 reject every word whose last nibble is not 0. -/
theorem decode_zeroNibble_error {w : Word} (hf : family w = 5 ∨ family w = 9) (hn : fieldN w ≠ 0#4) :
    decode w = .error (.decodeError w (family w)) := by
  rcases hf with hf | hf <;> simp [decode, decodeZeroNibble, illegal, hf, hn]

/-! ### Execute -/

/-- An answer names one next state. -/
theorem next_unique {o : Outcome} {s t : State} (hs : o = .next s) (ht : o = .next t) : s = t :=
  Host.Outcome.next.inj (hs.symm.trans ht)

theorem exec_seReg (x y : Reg) (s : State) :
    exec (.seReg x y) s = .next { s with pc := if s.getV x = s.getV y then s.pc + 4 else s.pc + 2 } := by
  simp only [exec, execSeReg, skipIf_eq, beq_iff_eq]

theorem exec_sneReg (x y : Reg) (s : State) :
    exec (.sneReg x y) s = .next { s with pc := if s.getV x ≠ s.getV y then s.pc + 4 else s.pc + 2 } := by
  simp only [exec, execSneReg, skipIf_eq, bne_iff_ne]

theorem exec_jpV0 (nnn : Addr) (s : State) :
    exec (.jpV0 nnn) s = .next (s.setPc (zextAddr nnn + zextByte (s.getV 0))) := rfl

/-- The target of BNNN is at most 0x10FE, so 16 bits hold it exactly (10_state R25). -/
theorem jpV0_target_toNat (nnn : Addr) (b : Byte) : (zextAddr nnn + zextByte b).toNat = nnn.toNat + b.toNat := by
  have := nnn.isLt
  have := b.isLt
  rw [BitVec.toNat_add, zextAddr_toNat, zextByte_toNat]
  exact Nat.mod_eq_of_lt (by omega)

/-! ### The cycles of a call and a return (30_encoding R80) -/

/-- A cycle that fetches an instruction's word executes that instruction, then PcUpdate and the tick. -/
theorem step_of_encode {s u : State} {i : Instr} (hs : s.status = .running)
    (hf : fetch16 s.mem s.pc = .ok (encode i)) (he : exec i (s.setOpcode (encode i)) = .next u)
    (hu : u.status = .running) : step s = .next (timerTick (pcUpdate i u)) := by
  rw [step_exec hs hf (decode_encode i), he, completeCycle_running hu]

theorem step_call {s : State} {nnn : Addr} (hs : s.status = .running) (h : s.sp.val < 16)
    (hf : fetch16 s.mem s.pc = .ok (encode (.call nnn))) :
    ∃ t, step s = .next t ∧ t.status = .running ∧ t.pc = zextAddr nnn ∧ t.sp.val = s.sp.val + 1 ∧
      t.stack = s.stack.set s.sp.val s.pc h := by
  have complete := step_of_encode hs hf (exec_call_ok (s := s.setOpcode (encode (.call nnn))) nnn h) hs
  rw [pcUpdate_other (by simp [pcClass])] at complete
  exact ⟨_, complete, hs, rfl, rfl, rfl⟩

theorem step_ret {s : State} (j : Fin 16) (hs : s.status = .running) (h : s.sp.val = j.val + 1)
    (hf : fetch16 s.mem s.pc = .ok (encode .ret)) :
    ∃ t, step s = .next t ∧ t.status = .running ∧ t.pc = s.stack[j] + 2 ∧ t.sp.val = j.val ∧ t.stack = s.stack := by
  have complete := step_of_encode hs hf (exec_ret_ok (s := s.setOpcode (encode .ret)) j h) hs
  rw [pcUpdate_normal (by simp [pcClass])] at complete
  exact ⟨_, complete, hs, rfl, rfl, rfl⟩

/-! ### The obligations -/

/-- Settles O3: families 5 and 9 with last nibble 0 decode to SE and SNE, whose steps are skips. -/
theorem skipOnRegisters : Obligations.SkipOnRegisters := by
  refine ⟨encoding_regReg (p := 0x5) (n := 0x0) fun _ _ => rfl, encoding_regReg (p := 0x9) (n := 0x0) fun _ _ => rfl,
    fun _ => decode_zeroNibble_error, fun x y => ?_⟩
  exact ⟨setsOwnPc_of_pcClass (by simp [pcClass]), setsOwnPc_of_pcClass (by simp [pcClass]), fun s =>
    ⟨exec_seReg x y s, exec_sneReg x y s⟩⟩

/-- Settles O4: family B decodes to JP V0, whose step is one write of `pc`; the sum fits in 16 bits. -/
theorem jumpPlusV0IsExact : Obligations.JumpPlusV0IsExact := by
  refine ⟨encoding_addr (p := 0xB) fun _ => rfl, fun nnn => ⟨setsOwnPc_of_pcClass (by simp [pcClass]), fun s => ?_⟩⟩
  exact ⟨_, exec_jpV0 nnn s, jpV0_target_toNat nnn (s.getV 0), rfl⟩

/-- Settles O5: family 2 decodes to CALL, which pushes `pc` and jumps, or overflows. -/
theorem callPushesCallSite : Obligations.CallPushesCallSite := by
  refine ⟨encoding_addr (p := 0x2) fun _ => rfl, fun nnn => ⟨setsOwnPc_of_pcClass (by simp [pcClass]), fun s => ?_⟩⟩
  exact ⟨fun h => ⟨_, exec_call_ok nnn h, rfl, rfl, zextAddr_toNat nnn, rfl⟩, exec_call_error nnn⟩

/-- Settles O6: RET pops the entry below `sp` into `pc` and leaves the stack itself, or underflows. -/
theorem returnPopsCallSite : Obligations.ReturnPopsCallSite := by
  refine ⟨decode_encode .ret, advances_of_pcClass rfl, fun s => ?_⟩
  exact ⟨fun j h => ⟨_, exec_ret_ok j h, rfl, rfl⟩, exec_ret_error⟩

/-- Settles O7: the call puts its own address into the slot at the old `sp`, and the return pops that slot. -/
theorem callThenReturn : Obligations.CallThenReturn := by
  intro s t u nnn hs hsp hcall hst hret htu
  obtain ⟨t', ht', running, htpc, htsp, htstack⟩ := step_call hs hsp hcall
  obtain rfl : t = t' := next_unique hst ht'
  obtain ⟨u', hu', urunning, hupc, husp, hustack⟩ := step_ret ⟨s.sp.val, hsp⟩ running htsp hret
  obtain rfl : u = u' := next_unique htu hu'
  have popped : t.stack[s.sp.val] = s.pc := by simp [htstack]
  refine ⟨by rw [htpc, zextAddr_toNat], urunning, hupc.trans (congrArg (· + 2) popped), Fin.ext husp, fun j hj => ?_⟩
  rw [hustack, htstack]
  exact Vector.getElem_set_ne _ _ (by omega)

end Sys2Proof.Proofs
end

section
/-! PROOFS. ALU (41_alu), the rest: the bitwise operations, the sum with carry, the differences, the shifts and the
random byte. -/

namespace Sys2Proof.Proofs

open Sys2Proof.Machine Sys2Proof.Claims

/-! ### Flags (00_scope R7, 10_state R21) -/

/-- The model's flag of a comparison is the claims' one. -/
theorem flagOf_eq_flag (p : Prop) [Decidable p] : flagOf (decide p) = flag p := flagOf_decide p

theorem flag_toNat_le_one (p : Prop) [Decidable p] : (flag p).toNat ≤ 1 := by
  by_cases h : p <;> simp [flag, h]

/-! ### The order of the two writes (92 D2) -/

/-- A result into V[X], then a flag: VF holds the flag, whatever X is. -/
@[simp] theorem resultThenFlag_vf (x : Reg) (r f : Byte) (s : State) : (resultThenFlag x r f s).getV 15 = f :=
  State.getV_setV_same _ _ _

theorem resultThenFlag_result {x : Reg} (r f : Byte) (s : State) (hx : x ≠ 15) : (resultThenFlag x r f s).getV x = r :=
  (State.getV_setV_ne _ f hx).trans (State.getV_setV_same s x r)

theorem resultThenFlag_other {x j : Reg} (r f : Byte) (s : State) (hx : j ≠ x) (hf : j ≠ 15) :
    (resultThenFlag x r f s).getV j = s.getV j :=
  (State.getV_setV_ne _ f hf).trans (State.getV_setV_ne s r hx)

/-- The sum into V[X], exactly, of the registers as they stand. -/
theorem addInto_toNat (x y : Reg) (s : State) :
    ((addInto x y s).getV x).toNat = ((s.getV x).toNat + (s.getV y).toNat) % 256 := by
  rw [addInto, State.getV_setV_same, BitVec.toNat_add]

theorem addInto_other {x j : Reg} (y : Reg) (s : State) (h : j ≠ x) : (addInto x y s).getV j = s.getV j :=
  State.getV_setV_ne s _ h

/-! ### The shifts as arithmetic (R128, R130) -/

theorem shiftRight_one_toNat (b : Byte) : (b >>> 1).toNat = b.toNat / 2 := by
  rw [BitVec.toNat_ushiftRight, Nat.shiftRight_eq_div_pow, pow_one]

theorem shiftLeft_one_toNat (b : Byte) : (b <<< 1).toNat = 2 * b.toNat % 256 := by
  rw [BitVec.toNat_shiftLeft, Nat.shiftLeft_eq, pow_one, Nat.mul_comm]

/-! ### Execute -/

/-- 8XY4 writes the carry first; the sum reads V[X] and V[Y] after that (R126). -/
theorem exec_addReg (x y : Reg) (s : State) :
    exec (.addReg x y) s =
      .next (addInto x y (s.setV 15 (flag (255 < (s.getV x).toNat + (s.getV y).toNat)))) := by
  simp only [exec, execAddReg, carryFlag, flagOf_eq_flag, vf]

theorem exec_subReg (x y : Reg) (s : State) :
    exec (.subReg x y) s =
      .next (resultThenFlag x (s.getV x - s.getV y) (flag ((s.getV y).toNat ≤ (s.getV x).toNat)) s) := by
  simp only [exec, execSubReg, noBorrowFlag, flagOf_eq_flag]

theorem exec_subnReg (x y : Reg) (s : State) :
    exec (.subnReg x y) s =
      .next (resultThenFlag x (s.getV y - s.getV x) (flag ((s.getV x).toNat ≤ (s.getV y).toNat)) s) := by
  simp only [exec, execSubnReg, noBorrowFlag, flagOf_eq_flag]

theorem exec_shr (x y : Reg) (s : State) :
    exec (.shr x y) s = .next (resultThenFlag x (s.getV x >>> 1) (lowBitFlag (s.getV x)) s) := rfl

theorem exec_shl (x y : Reg) (s : State) :
    exec (.shl x y) s = .next (resultThenFlag x (s.getV x <<< 1) (highBitFlag (s.getV x)) s) := rfl

theorem exec_rnd (x : Reg) (nn : Byte) (s : State) :
    exec (.rnd x nn) s = .next (randomInto (Config.randomByte s.draws) x nn s) := rfl

/-- The difference mod 256 as an integer (R127, R129). -/
theorem sub_toNat_int (a b : Byte) : ((a - b).toNat : Int) = ((a.toNat : Int) - b.toNat) % 256 := by
  have := a.isLt
  have := b.isLt
  rw [BitVec.toNat_sub]
  omega

/-! ### The obligations -/

/-- Settles O9: each step is one write of V[X], of the bitwise operation on the two registers. -/
theorem bitwiseOps : Obligations.BitwiseOps := by
  refine ⟨encoding_regReg (p := 0x8) (n := 0x1) fun _ _ => rfl, encoding_regReg (p := 0x8) (n := 0x2) fun _ _ => rfl,
    encoding_regReg (p := 0x8) (n := 0x3) fun _ _ => rfl, fun x y => ?_⟩
  refine ⟨advances_of_pcClass rfl, advances_of_pcClass rfl,
    advances_of_pcClass rfl, fun s => ⟨_, _, _, rfl, rfl, rfl, fun b => ?_, fun j hj => ?_, rfl, rfl, rfl⟩⟩
  · simp only [State.getV_setV_same, BitVec.getLsbD_or, BitVec.getLsbD_and, BitVec.getLsbD_xor, Bool.bne_eq_xor,
      and_self]
  · exact ⟨State.getV_setV_ne s _ hj, State.getV_setV_ne s _ hj, State.getV_setV_ne s _ hj⟩

/-- Settles O10: the sum reads the registers after the carry is in VF, so each case of X and Y says which of its
operands is the carry. -/
theorem addWithCarry : Obligations.AddWithCarry := by
  refine ⟨encoding_regReg (p := 0x8) (n := 0x4) fun _ _ => rfl, fun x y => ⟨advances_of_pcClass rfl,
    fun s => ⟨_, exec_addReg x y s, fun hx hy => ?_, fun hx hy => ?_, fun hx hy => ?_, fun hx hy => ?_,
      fun j hj hf => ?_, rfl⟩⟩⟩
  · rw [addInto_toNat, State.getV_setV_ne s _ hx, State.getV_setV_ne s _ hy]
    exact ⟨rfl, (addInto_other y _ hx.symm).trans (State.getV_setV_same s 15 _)⟩
  · subst hx
    rw [addInto_toNat, State.getV_setV_same, State.getV_setV_ne s _ hy]
  · subst hy
    rw [addInto_toNat, State.getV_setV_same, State.getV_setV_ne s _ hx]
    exact ⟨rfl, (addInto_other 15 _ hx.symm).trans (State.getV_setV_same s 15 _)⟩
  · subst hx hy
    have := flag_toNat_le_one (255 < 2 * (s.getV 15).toNat)
    rw [addInto_toNat, State.getV_setV_same, ← Nat.two_mul, ← Nat.two_mul]
    exact Nat.mod_eq_of_lt (by omega)
  · rw [addInto_other y _ hj, State.getV_setV_ne s _ hf]

/-- Settles O11: each step is the difference into V[X], then the flag into VF. -/
theorem subtractNoBorrow : Obligations.SubtractNoBorrow := by
  refine ⟨encoding_regReg (p := 0x8) (n := 0x5) fun _ _ => rfl, encoding_regReg (p := 0x8) (n := 0x7) fun _ _ => rfl,
    fun x y => ⟨advances_of_pcClass rfl, advances_of_pcClass rfl, fun s => ?_⟩⟩
  refine ⟨_, _, exec_subReg x y s, exec_subnReg x y s, fun hx => ?_, resultThenFlag_vf .., resultThenFlag_vf ..,
    fun j hj hf => ⟨resultThenFlag_other _ _ s hj hf, resultThenFlag_other _ _ s hj hf⟩, rfl, rfl⟩
  rw [resultThenFlag_result _ _ s hx, resultThenFlag_result _ _ s hx]
  exact ⟨sub_toNat_int _ _, sub_toNat_int _ _⟩

/-- Settles O12: each step is the shifted V[X] into V[X], then the bit shifted out into VF. -/
theorem shiftByOne : Obligations.ShiftByOne := by
  refine ⟨encoding_regReg (p := 0x8) (n := 0x6) fun _ _ => rfl, encoding_regReg (p := 0x8) (n := 0xE) fun _ _ => rfl,
    fun x y => ⟨advances_of_pcClass rfl, advances_of_pcClass rfl, fun s => ?_⟩⟩
  refine ⟨_, _, exec_shr x y s, exec_shl x y s, fun hx => ?_, ?_, ?_,
    fun j hj hf => ⟨resultThenFlag_other _ _ s hj hf, resultThenFlag_other _ _ s hj hf⟩, rfl, rfl⟩
  · rw [resultThenFlag_result _ _ s hx, resultThenFlag_result _ _ s hx]
    exact ⟨shiftRight_one_toNat _, shiftLeft_one_toNat _⟩
  · rw [resultThenFlag_vf, lowBitFlag_toNat]
  · rw [resultThenFlag_vf, highBitFlag_toNat]

/-- Settles O13: the step is one write of V[X], of the byte drawn and the mask, and one of the draw count. -/
theorem randomIsMasked : Obligations.RandomIsMasked := by
  refine ⟨encoding_regImm (p := 0xC) fun _ _ => rfl, fun x nn => ⟨advances_of_pcClass rfl, fun s => ?_⟩⟩
  have masked : (randomInto (Config.randomByte s.draws) x nn s).getV x = Config.randomByte s.draws &&& nn :=
    State.getV_setV_same s x _
  refine ⟨_, exec_rnd x nn s, masked, fun b hb => ?_, fun j hj => State.getV_setV_ne s _ hj, rfl⟩
  rw [masked, BitVec.getLsbD_and, hb, Bool.and_false]

end Sys2Proof.Proofs
end

section
/-! PROOFS. The index register and memory (42_index_memory, 20_memory), the rest: the sum FX1E, the stores FX33 and
FX55, the load FX65, and memory as plain storage. -/

namespace Sys2Proof.Proofs

open Sys2Proof.Machine Sys2Proof.Claims

/-! ### Execute -/

/-- FX1E writes the overflow flag first; the sum reads V[X] after that (R151). -/
theorem exec_addI (x : Reg) (s : State) :
    exec (.addI x) s = .next (addIntoI x (s.setV 15 (flag (0xFFF < s.i.toNat + (s.getV x).toNat)))) := by
  simp only [exec, execAddI, indexOverflowFlag, flagOf_eq_flag, vf]

/-- The sum into I, mod 65536, of I and V[X] as they stand. -/
theorem addIntoI_toNat (x : Reg) (s : State) :
    (addIntoI x s).i.toNat = (s.i.toNat + (s.getV x).toNat) % 65536 := by
  rw [addIntoI, State.setI_i, BitVec.toNat_add, zextByte_toNat]

/-- An index advanced past a block inside memory does not wrap (R154, R155). -/
theorem advanceI_toNat {x : Reg} {s : State} (h : s.i.toNat + x.val ≤ 4095) :
    (advanceI x s).i.toNat = s.i.toNat + x.val + 1 := by
  rw [advanceI, State.setI_i, trunc16_toNat, Nat.mod_eq_of_lt (by omega)]

/-- A number that fits a byte is not changed by truncation. -/
theorem trunc8_toNat_of_lt {n : Nat} (h : n < 256) : (trunc8 n).toNat = n := (trunc8_toNat n).trans (Nat.mod_eq_of_lt h)

/-- FX33 in range: the digits at I upwards, and memory alone changed. -/
theorem exec_ldB_ok {s : State} (x : Reg) (h : s.i.toNat + 2 ≤ 4095) :
    ∃ m, exec (.ldB x) s = .next (s.setMem m) ∧
      (∀ k, ∀ hk : k < 3, m.read (s.i.toNat + k) = (decimalDigits (s.getV x))[k]) ∧
      ∀ a, a < s.i.toNat ∨ s.i.toNat + 3 ≤ a → m.read a = s.mem.read a := by
  have room : s.i.toNat + (decimalDigits (s.getV x)).length ≤ 4096 := by simp only [decimalDigits, List.length]; omega
  obtain ⟨m, hm, hin, hout⟩ := writeBytes_ok s.mem room
  exact ⟨m, by simp [exec, execLdB, State.addrI, hm], hin, hout⟩

theorem exec_ldB_error {s : State} (x : Reg) (h : 4095 < s.i.toNat + 2) :
    exec (.ldB x) s = .next (raiseFault (some s.opcode) (.memWriteBounds (max s.i.toNat 4096)) s) := by
  have tooLong : 4096 < s.i.toNat + (decimalDigits (s.getV x)).length := by
    simp only [decimalDigits, List.length]; omega
  have := writeBytes_error (m := s.mem) (by simp [decimalDigits]) tooLong
  simp [exec, execLdB, State.addrI, this]

/-- FX55 in range: V[0] to V[X] at I upwards, and I advanced. -/
theorem exec_ldMemVx_ok {s : State} {x : Reg} (h : s.i.toNat + x.val ≤ 4095) :
    ∃ m, exec (.ldMemVx x) s = .next (advanceI x (s.setMem m)) ∧
      (∀ j : Reg, j ≤ x → m.read (s.i.toNat + j.val) = s.getV j) ∧
      ∀ a, a < s.i.toNat ∨ s.i.toNat + x.val < a → m.read a = s.mem.read a := by
  have room : s.i.toNat + (s.regsUpTo x).length ≤ 4096 := by rw [State.length_regsUpTo]; omega
  obtain ⟨m, hm, hin, hout⟩ := writeBytes_ok s.mem room
  have len := s.length_regsUpTo x
  refine ⟨m, by simp [exec, execLdMemVx, State.addrI, hm], fun j hj => ?_, fun a ha => hout a (by omega)⟩
  have stored : j.val < (s.regsUpTo x).length := len ▸ Nat.lt_succ_of_le hj
  exact (hin j.val stored).trans (State.getElem_regsUpTo s x j stored)

theorem exec_ldMemVx_error {s : State} {x : Reg} (h : 4095 < s.i.toNat + x.val) :
    exec (.ldMemVx x) s = .next (raiseFault (some s.opcode) (.memWriteBounds (max s.i.toNat 4096)) s) := by
  have tooLong : 4096 < s.i.toNat + (s.regsUpTo x).length := by rw [State.length_regsUpTo]; omega
  have := writeBytes_error (m := s.mem) (fun h => by simpa [h] using s.length_regsUpTo x) tooLong
  simp [exec, execLdMemVx, State.addrI, this]

/-- The registers FX65 leaves: the bytes at I upwards in V[0] to V[X], the others kept. -/
theorem loadRegs_memory (m : Memory) (v : Vector Byte 16) (a : Nat) (x j : Reg) :
    (loadRegs v 0 ((List.range (x.val + 1)).map fun k => m.read (a + k)))[j] =
      if j ≤ x then m.read (a + j.val) else v[j] := by
  have inBlock : (0 ≤ j.val ∧ j.val < 0 + (x.val + 1)) ↔ j ≤ x := by rw [Fin.le_def]; omega
  simp only [loadRegs_get, List.length_map, List.length_range, inBlock, List.getElem_map, List.getElem_range,
    Nat.sub_zero, dite_eq_ite]

/-- What FX65 in range leaves in each register. -/
theorem getV_of_exec_ldVxMem {s t : State} {x : Reg} (h : s.i.toNat + x.val ≤ 4095)
    (e : exec (.ldVxMem x) s = .next t) (j : Reg) :
    t.getV j = if j ≤ x then s.mem.read (s.i.toNat + j.val) else s.getV j := by
  obtain rfl := next_unique (exec_ldVxMem_ok h) e
  exact loadRegs_memory s.mem s.v s.i.toNat x j

/-! ### The obligations -/

/-- Settles O15: the sum reads V[X] after the flag is in VF, so for X = 15 it adds the flag. -/
theorem addToIndex : Obligations.AddToIndex := by
  refine ⟨encoding_regSub (p := 0xF) (nn := 0x1E) fun _ => rfl, fun x => ⟨advances_of_pcClass rfl,
    fun s => ⟨_, exec_addI x s, State.getV_setV_same s 15 _, fun hx => ?_, fun hx => ?_,
      fun j hj => State.getV_setV_ne s _ hj, rfl⟩⟩⟩
  · rw [addIntoI_toNat, State.getV_setV_ne s _ hx, State.setV_i]
  · subst hx
    rw [addIntoI_toNat, State.getV_setV_same, State.setV_i]

/-- Settles O16: three writes from I upwards, of the digits, or none. -/
theorem storeDecimal : Obligations.StoreDecimal := by
  refine ⟨encoding_regSub (p := 0xF) (nn := 0x33) fun _ => rfl, fun x => ⟨advances_of_pcClass rfl,
    fun s => ⟨fun h => ?_, exec_ldB_error x⟩⟩⟩
  obtain ⟨m, hm, hin, hout⟩ := exec_ldB_ok x h
  have := (s.getV x).isLt
  have digit : ∀ k, ∀ hk : k < 3, (m.read (s.i.toNat + k)).toNat = ((decimalDigits (s.getV x))[k]).toNat :=
    fun k hk => congrArg BitVec.toNat (hin k hk)
  exact ⟨_, hm, (digit 0 (by decide)).trans (trunc8_toNat_of_lt (by omega)),
    (digit 1 (by decide)).trans (trunc8_toNat_of_lt (by omega)),
    (digit 2 (by decide)).trans (trunc8_toNat_of_lt (by omega)), fun a ha => hout a (by omega), rfl⟩

/-- Settles O17: X + 1 writes from I upwards, of the registers, and I advanced past them, or nothing. -/
theorem storeRegisters : Obligations.StoreRegisters := by
  refine ⟨encoding_regSub (p := 0xF) (nn := 0x55) fun _ => rfl, fun x => ⟨advances_of_pcClass rfl,
    fun s => ⟨fun h => ?_, exec_ldMemVx_error⟩⟩⟩
  obtain ⟨m, hm, hin, hout⟩ := exec_ldMemVx_ok h
  exact ⟨_, hm, hin, hout, advanceI_toNat (s := s.setMem m) h, rfl⟩

/-- Settles O18: X + 1 reads from I upwards, into the registers, and I advanced past them, or nothing. -/
theorem loadRegisters : Obligations.LoadRegisters := by
  refine ⟨encoding_regSub (p := 0xF) (nn := 0x65) fun _ => rfl, fun x => ⟨advances_of_pcClass rfl,
    fun s => ⟨fun h => ?_, exec_ldVxMem_error⟩⟩⟩
  have done := exec_ldVxMem_ok h
  refine ⟨_, done, fun j hj => ?_, fun j hj => ?_, advanceI_toNat (s := s.setRegs _) h, rfl⟩
  · rw [getV_of_exec_ldVxMem h done, if_pos hj]
  · rw [getV_of_exec_ldVxMem h done, if_neg (not_le_of_gt hj)]

/-- Settles O19: FX65 reads the addresses FX55 wrote. -/
theorem storeThenLoadRestores : Obligations.StoreThenLoadRestores := by
  intro x s t u w h hstore hmem hi hload j hj
  obtain ⟨m, hm, hin, -⟩ := exec_ldMemVx_ok h
  obtain rfl := next_unique hm hstore
  have stored : u.mem = m := hmem
  rw [← hi] at h hin
  rw [getV_of_exec_ldVxMem h hload, if_pos hj, stored]
  exact hin j hj

/-- Settles O20: the three laws of Laws/Memory. -/
theorem memoryIsPlainStorage : Obligations.MemoryIsPlainStorage :=
  ⟨Memory.read_write, fun _ _ v h ha => Memory.wf_write h ha v, fun _ _ => Memory.ext_read⟩

end Sys2Proof.Proofs
end

section
/-! PROOFS. Display (43_display), the rest: the draw DXYN is one XOR of the cells its sprite hits, so a second one
undoes it. -/

namespace Sys2Proof.Proofs

open Sys2Proof.Machine Sys2Proof.Claims

/-! ### The cells a sprite hits (R171, R172) -/

theorem eq_cellOf_iff (x0 y0 : Byte) (r c : Nat) (cx : Fin 64) (cy : Fin 32) :
    (cx, cy) = cellOf x0 y0 r c ↔ cx.val = (x0.toNat + c) % 64 ∧ cy.val = (y0.toNat + r) % 32 := by
  simp only [cellOf, Prod.mk.injEq, Fin.ext_iff, Fin.val_ofNat]

/-- The cells the model draws are those the sprite's set bits land on. -/
theorem mem_spriteCells_iff (s : State) (x y : Reg) (n : Nibble) (cx : Fin 64) (cy : Fin 32) :
    (cx, cy) ∈ spriteCells (s.getV x) (s.getV y) 0 (spriteRows s n) ↔ SpriteHits s x y n cx cy := by
  simp only [mem_spriteCells, length_spriteRows, Nat.zero_add, eq_cellOf_iff, SpriteHits]
  constructor
  · rintro ⟨r, hr, c, hc, hbit, hx, hy⟩
    exact ⟨r, c, hr, hc, by simpa [spriteRows] using hbit, hx, hy⟩
  · rintro ⟨r, c, hr, hc, hbit, hx, hy⟩
    exact ⟨r, hr, c, hc, by simpa [spriteRows] using hbit, hx, hy⟩

/-- Two framebuffers with the same cells are one. -/
theorem framebuffer_ext {a b : Framebuffer} (h : ∀ (cx : Fin 64) (cy : Fin 32), a[cx][cy] = b[cx][cy]) : a = b :=
  Vector.ext fun cx hx => Vector.ext fun cy hy => h ⟨cx, hx⟩ ⟨cy, hy⟩

/-! ### Execute -/

/-- What a draw whose rows are in range does: it toggles the cells the sprite hits, puts into VF whether one of them was
set, and sets the redraw flag. -/
theorem exec_drw_spec {s : State} (x y : Reg) {n : Nibble} (h : n.toNat = 0 ∨ s.i.toNat + n.toNat ≤ 4096) :
    ∃ p, exec (.drw x y n) s = .next (showSprite p s) ∧
      (∀ (cx : Fin 64) (cy : Fin 32), (SpriteHits s x y n cx cy → p.1[cx][cy] = !s.fb[cx][cy]) ∧
        (¬ SpriteHits s x y n cx cy → p.1[cx][cy] = s.fb[cx][cy])) ∧
      (p.2 = true ↔ ∃ (cx : Fin 64) (cy : Fin 32), SpriteHits s x y n cx cy ∧ s.fb[cx][cy] = true) := by
  have short : (spriteRows s n).length ≤ 32 := by rw [length_spriteRows]; have := n.isLt; omega
  obtain ⟨hfb, hhit⟩ := drawSprite_spec s.fb (s.getV x) (s.getV y) (spriteRows s n) short
  simp only [Prod.exists, mem_spriteCells_iff] at hhit
  refine ⟨_, exec_drw_ok x y h, fun cx cy => ?_, hhit⟩
  rw [hfb cx cy, ← mem_spriteCells_iff]
  exact ⟨fun hc => if_pos hc, fun hc => if_neg hc⟩

@[simp] theorem showSprite_vf (p : Framebuffer × Bool) (s : State) : (showSprite p s).getV 15 = flagOf p.2 :=
  State.getV_setV_same _ _ _

theorem flagOf_eq_one_iff (c : Bool) : flagOf c = 1 ↔ c = true := by cases c <;> decide

/-- Which cells a sprite hits depends on memory, I and the two coordinates alone. -/
theorem spriteHits_congr {s u : State} {x y : Reg} (n : Nibble) (hm : u.mem = s.mem) (hi : u.i = s.i)
    (hx : u.getV x = s.getV x) (hy : u.getV y = s.getV y) (cx : Fin 64) (cy : Fin 32) :
    SpriteHits u x y n cx cy ↔ SpriteHits s x y n cx cy := by
  simp only [SpriteHits, hm, hi, hx, hy]

/-! ### The obligations -/

/-- Settles O22: family D decodes to DRW, whose step draws, or reads nothing, in range. -/
theorem drawIsXorOfMask : Obligations.DrawIsXorOfMask := by
  refine ⟨encoding_draw (p := 0xD) fun _ _ _ => rfl, fun x y n => ⟨advances_of_pcClass rfl,
    fun s h => ?_⟩⟩
  obtain ⟨p, done, cells, collision⟩ := exec_drw_spec x y h
  refine ⟨_, done, cells, fun hc => ?_, fun hc => ?_, fun j hj => State.getV_setV_ne _ _ hj, rfl⟩
  · rw [showSprite_vf, collision.mpr hc, flagOf_true]
  · rw [showSprite_vf, Bool.eq_false_iff.mpr (fun e => hc (collision.mp e)), flagOf_false]

/-- Settles O23: the first row out of range makes the whole draw raise. -/
theorem drawOutOfRange : Obligations.DrawOutOfRange := fun x y _ _ => exec_drw_error x y

/-- Settles O24: the second draw toggles the cells the first one toggled, and finds set exactly those that were 0. -/
theorem drawTwiceRestores : Obligations.DrawTwiceRestores := by
  intro x y n s t u w h hst hfb hmem hi hx hy huw
  obtain ⟨p, first, cells, -⟩ := exec_drw_spec x y h
  obtain rfl := next_unique first hst
  obtain ⟨q, second, cells', collision'⟩ := exec_drw_spec (s := u) (n := n) x y (hi ▸ h)
  obtain rfl := next_unique second huw
  have between : u.fb = p.1 := hfb
  simp only [spriteHits_congr n hmem hi hx hy, between] at cells' collision'
  constructor
  · refine framebuffer_ext fun cx cy => ?_
    by_cases hc : SpriteHits s x y n cx cy
    · exact ((cells' cx cy).1 hc).trans (by rw [(cells cx cy).1 hc, Bool.not_not])
    · exact ((cells' cx cy).2 hc).trans ((cells cx cy).2 hc)
  · rw [showSprite_vf, flagOf_eq_one_iff, collision']
    refine exists_congr fun cx => exists_congr fun cy => and_congr_right fun hc => ?_
    rw [(cells cx cy).1 hc, Bool.not_eq_true']

end Sys2Proof.Proofs
end

section
/-! PROOFS. Keys and timers (44_keys_timers), the rest: the key skips EX9E and EXA1, the wait FX0A with its stall cycle,
and the delay write FX15. -/

namespace Sys2Proof.Proofs

open Sys2Proof.Machine Sys2Proof.Claims

/-! ### Execute -/

/-- FX0A with `k` the lowest pressed key: the key into V[X] and one step forward (R193). -/
theorem exec_ldVxK_pressed {s : State} {k : Fin 16} (x : Reg) (h : lowestKey s.keys = some k) :
    exec (.ldVxK x) s = .next ((s.setV x (trunc8 k.val)).setPc (s.pc + 2)) := by
  simp only [exec, execLdVxK, h]

/-- FX0A with no key pressed stalls (R193). -/
theorem exec_ldVxK_stall {s : State} (x : Reg) (h : lowestKey s.keys = none) : exec (.ldVxK x) s = .next s := by
  simp only [exec, execLdVxK, h]

theorem exec_ldDTVx (x : Reg) (s : State) : exec (.ldDTVx x) s = .next (s.setDT (s.getV x)) := rfl

/-- A skip on a released key is the skip on a pressed one with the two targets exchanged. -/
theorem skipIf_not_eq (c : Bool) (s : State) :
    skipIf (!c) s = { s with pc := if c then s.pc + 2 else s.pc + 4 } := by
  cases c <;> rfl

/-! ### The obligations -/

/-- Settles O25: a register that holds a key number makes a skip on that key, any other raises. -/
theorem skipOnKey : Obligations.SkipOnKey := by
  refine ⟨encoding_regSub (p := 0xE) (nn := 0x9E) fun _ => rfl, encoding_regSub (p := 0xE) (nn := 0xA1) fun _ => rfl,
    fun x => ⟨setsOwnPc_of_pcClass (by simp [pcClass]), setsOwnPc_of_pcClass (by simp [pcClass]), fun s =>
      ⟨fun k hk => ⟨?_, ?_⟩, fun h => ⟨exec_skp_error h, exec_sknp_error h⟩⟩⟩⟩
  · rw [exec_skp_ok k hk, skipIf_eq]
  · rw [exec_sknp_ok k hk, skipIf_not_eq]

/-- Settles O26: the scan finds the lowest pressed key, or none. -/
theorem waitForKey : Obligations.WaitForKey := by
  refine ⟨encoding_regSub (p := 0xF) (nn := 0x0A) fun _ => rfl, fun x =>
    ⟨setsOwnPc_of_pcClass (by simp [pcClass]), fun s => ⟨fun k hk low => ?_, fun h => ?_⟩⟩⟩
  · exact exec_ldVxK_pressed x (lowestKey_some hk low)
  · exact exec_ldVxK_stall x (lowestKey_none h)

/-- Settles O27: a stalled execute step and the PcUpdate of the wait class change nothing, so the latch and the tick are
all that is left of the cycle. -/
theorem stallCycleOnlyTicks : Obligations.StallCycleOnlyTicks := by
  intro x s hs hf h
  have stall := exec_ldVxK_stall (s := s.setOpcode (encode (.ldVxK x))) x (lowestKey_none h)
  have complete := step_of_encode hs hf stall hs
  rw [pcUpdate_other (by simp [pcClass])] at complete
  exact ⟨_, complete, timerTick_dt_toNat _, timerTick_st_toNat _, rfl⟩

/-- Settles O29: family F with low byte 0x15 decodes to the write, which the tick of the same cycle follows. -/
theorem delayWrite : Obligations.DelayWrite := by
  refine ⟨encoding_regSub (p := 0xF) (nn := 0x15) fun _ => rfl, fun x => ⟨advances_of_pcClass rfl,
    fun s => ⟨exec_ldDTVx x s, fun hs => ?_⟩⟩⟩
  have running : (s.setDT (s.getV x)).status = .running := hs
  rw [exec_ldDTVx, completeCycle_normal (by simp [pcClass]) running]
  exact ⟨_, rfl, timerTick_dt_toNat _⟩

end Sys2Proof.Proofs
end

section
/-! PROOFS. Every instruction (10_state, 60_exceptions R211): what an execute step can have done to the state, said once
for all 34 instructions, and the rules of who writes what and who raises what that follow from it. -/

namespace Sys2Proof.Proofs

open Sys2Proof.Machine Sys2Proof.Claims

/-! ### The registers an instruction does not name -/

/-- From `s` to `t` no register has changed that `i` may not write. -/
def KeepsRegs (i : Instr) (s t : State) : Prop := ∀ j : Reg, mayWriteReg i j = false → t.getV j = s.getV j

theorem KeepsRegs.refl (i : Instr) (s : State) : KeepsRegs i s s := fun _ _ => rfl

/-- Writing a register that `i` names keeps the others. -/
theorem KeepsRegs.setV {i : Instr} {s t : State} (h : KeepsRegs i s t) {x : Reg} (hx : mayWriteReg i x = true)
    (b : Byte) : KeepsRegs i s (t.setV x b) := fun j hj => by
  have other : j ≠ x := fun e => by rw [e, hx] at hj; cases hj
  rw [State.getV_setV_ne t b other]; exact h j hj

/-- A result and a flag, of an instruction that names both registers. -/
theorem keepsRegs_resultThenFlag {i : Instr} {x : Reg} (r f : Byte) (s : State) (hx : mayWriteReg i x = true)
    (hf : mayWriteReg i 15 = true) : KeepsRegs i s (resultThenFlag x r f s) :=
  ((KeepsRegs.refl i s).setV hx r).setV hf f

/-- FX65 loads V[0] to V[X] alone. -/
theorem keepsRegs_loadRegs {x : Reg} (s : State) {bs : List Byte} (h : bs.length = x.val + 1) :
    KeepsRegs (.ldVxMem x) s (s.setRegs (loadRegs s.v 0 bs)) := fun j hj => by
  have above : ¬ j ≤ x := by simpa [mayWriteReg] using hj
  refine (loadRegs_get s.v 0 bs j).trans (dif_neg fun hin => above (Fin.le_def.mpr ?_))
  omega

/-! ### What an execute step can do -/

/-- Everything the execute step of an instruction can make of a state: the fault the instruction may raise, or the
completed writes, one form for each group of instructions that write the same fields. -/
inductive Effect (s : State) : Instr → State → Prop
  | raise {i : Instr} {c : FaultCause} (hc : mayRaise i c) : Effect s i (raiseFault (some s.opcode) c s)
  /-- The ALU and FX07: registers, and the count of draws. -/
  | regs {i : Instr} {v : Vector Byte 16} {draws : Nat} (hi : pcClass i = .normal)
      (hv : KeepsRegs i s { s with v := v }) : Effect s i { s with v := v, draws := draws }
  /-- 1NNN and BNNN: `pc`, at most 0x10FE. -/
  | jump {i : Instr} {w : Word} (hi : pcClass i = .jumpOrCall) (hw : w.toNat ≤ 0x10FE) : Effect s i (s.setPc w)
  | skip {i : Instr} (c : Bool) (hi : pcClass i = .skip) : Effect s i (skipIf c s)
  | key (x : Reg) {k : Fin 16} (hk : s.keys[k] = true) :
      Effect s (.ldVxK x) ((s.setV x (trunc8 k.val)).setPc (s.pc + 2))
  | stall (x : Reg) (hk : ∀ k : Fin 16, s.keys[k] = false) : Effect s (.ldVxK x) s
  | call (nnn : Addr) (h : s.sp.val < 16) : Effect s (.call nnn)
      ((s.setStack (s.stack.set s.sp.val s.pc h) ⟨s.sp.val + 1, Nat.succ_lt_succ h⟩).setPc (zextAddr nnn))
  | ret (j : Fin 16) (h : s.sp.val = j.val + 1) :
      Effect s .ret ((s.setStack s.stack ⟨j.val, by omega⟩).setPc s.stack[j])
  /-- ANNN, FX1E, FX29 and FX65: I, and registers. -/
  | index {i : Instr} {v : Vector Byte 16} {w : Word} (hi : pcClass i = .normal) (hw : writesI i = true)
      (hv : KeepsRegs i s { s with v := v }) : Effect s i { s with v := v, i := w }
  | ldB (x : Reg) {m : Memory} (hm : s.mem.wf → m.wf) : Effect s (.ldB x) (s.setMem m)
  | ldMemVx (x : Reg) {m : Memory} (hm : s.mem.wf → m.wf) : Effect s (.ldMemVx x) (advanceI x (s.setMem m))
  | ldDTVx (x : Reg) : Effect s (.ldDTVx x) (s.setDT (s.getV x))
  | ldSTVx (x : Reg) : Effect s (.ldSTVx x) (s.setST (s.getV x))
  | cls : Effect s .cls ((s.setFb clearFb).setRedraw true)
  | drw (x y : Reg) (n : Nibble) (p : Framebuffer × Bool) : Effect s (.drw x y n) (showSprite p s)

/-- Every execute step answers a next state, and the state is one of these. -/
theorem exec_effect (i : Instr) (s : State) : ∃ t, exec i s = .next t ∧ Effect s i t := by
  have keep := KeepsRegs.refl
  cases i with
  | cls => exact ⟨_, rfl, .cls⟩
  | ret =>
    rcases exec_ret_cases s with ⟨j, h, e⟩ | ⟨_, e⟩
    · exact ⟨_, e, .ret j h⟩
    · exact ⟨_, e, .raise rfl⟩
  | jp nnn => exact ⟨_, rfl, .jump rfl (by have := nnn.isLt; rw [zextAddr_toNat]; omega)⟩
  | call nnn =>
    rcases exec_call_cases nnn s with ⟨h, e⟩ | ⟨_, e⟩
    · exact ⟨_, e, .call nnn h⟩
    · exact ⟨_, e, .raise rfl⟩
  | seImm x nn | sneImm x nn => exact ⟨_, rfl, .skip _ rfl⟩
  | seReg x y | sneReg x y => exact ⟨_, rfl, .skip _ rfl⟩
  | ldImm x nn | addImm x nn => exact ⟨_, rfl, .regs rfl ((keep _ s).setV (by simp [mayWriteReg]) _)⟩
  | ldReg x y | orReg x y | andReg x y | xorReg x y =>
    exact ⟨_, rfl, .regs rfl ((keep _ s).setV (by simp [mayWriteReg]) _)⟩
  | addReg x y =>
    exact ⟨_, rfl, .regs rfl (((keep _ s).setV (by simp [mayWriteReg, vf]) _).setV (by simp [mayWriteReg]) _)⟩
  | subReg x y | shr x y | subnReg x y | shl x y =>
    exact ⟨_, rfl, .regs rfl (keepsRegs_resultThenFlag _ _ s (by simp [mayWriteReg]) (by simp [mayWriteReg]))⟩
  | ldI nnn => exact ⟨_, rfl, .index rfl rfl (keep _ s)⟩
  | jpV0 nnn =>
    refine ⟨_, rfl, .jump rfl ?_⟩
    have := nnn.isLt
    have := (s.getV 0).isLt
    rw [jpV0_target_toNat]; omega
  | rnd x nn => exact ⟨_, rfl, .regs rfl ((keep _ s).setV (by simp [mayWriteReg]) _)⟩
  | drw x y n =>
    rcases exec_drw_cases x y n s with ⟨p, e⟩ | ⟨a, e⟩
    · exact ⟨_, e, .drw x y n p⟩
    · exact ⟨_, e, .raise ⟨a, rfl⟩⟩
  | skp x =>
    rcases exec_skp_cases x s with ⟨c, e⟩ | e
    · exact ⟨_, e, .skip c rfl⟩
    · exact ⟨_, e, .raise ⟨_, rfl⟩⟩
  | sknp x =>
    rcases exec_sknp_cases x s with ⟨c, e⟩ | e
    · exact ⟨_, e, .skip c rfl⟩
    · exact ⟨_, e, .raise ⟨_, rfl⟩⟩
  | ldVxDT x => exact ⟨_, rfl, .regs rfl ((keep _ s).setV (by simp [mayWriteReg]) _)⟩
  | ldVxK x =>
    cases h : lowestKey s.keys with
    | some k => exact ⟨_, exec_ldVxK_pressed x h, .key x (lowestKey_pressed h)⟩
    | none => exact ⟨_, exec_ldVxK_stall x h, .stall x (lowestKey_released h)⟩
  | ldDTVx x => exact ⟨_, rfl, .ldDTVx x⟩
  | ldSTVx x => exact ⟨_, rfl, .ldSTVx x⟩
  | addI x => exact ⟨_, rfl, .index rfl rfl ((keep _ s).setV (by simp [mayWriteReg, vf]) _)⟩
  | ldF x => exact ⟨_, rfl, .index rfl rfl (keep _ s)⟩
  | ldB x =>
    rcases exec_ldB_cases x s with ⟨m, hm, e⟩ | ⟨a, e⟩
    · exact ⟨_, e, .ldB x hm⟩
    · exact ⟨_, e, .raise ⟨a, rfl⟩⟩
  | ldMemVx x =>
    rcases exec_ldMemVx_cases x s with ⟨m, hm, e⟩ | ⟨a, e⟩
    · exact ⟨_, e, .ldMemVx x hm⟩
    · exact ⟨_, e, .raise ⟨a, rfl⟩⟩
  | ldVxMem x =>
    rcases exec_ldVxMem_cases x s with ⟨bs, hbs, e⟩ | ⟨a, e⟩
    · exact ⟨_, e, .index rfl rfl (keepsRegs_loadRegs s hbs)⟩
    · exact ⟨_, e, .raise ⟨a, rfl⟩⟩

theorem effect_of_exec {i : Instr} {s t : State} (h : exec i s = .next t) : Effect s i t := by
  obtain ⟨u, e, heff⟩ := exec_effect i s
  obtain rfl := next_unique h e
  exact heff

/-! ### What follows for each part of the state -/

section
variable {s t : State} {i : Instr}

/-- The status is kept, or the instruction has raised a fault it may raise and written nothing else. -/
theorem Effect.status (h : Effect s i t) :
    t.status = s.status ∨ ∃ c, mayRaise i c ∧ t = raiseFault (some s.opcode) c s := by
  cases h with
  | raise hc => exact .inr ⟨_, hc, rfl⟩
  | _ => exact .inl rfl

/-- A step that leaves a running block halted has raised. -/
theorem Effect.raised {record : FaultRecord} (h : Effect s i t) (hs : s.status = .running)
    (ht : t.status = .halted record) :
    ∃ c, mayRaise i c ∧ record = ⟨s.pc, some s.opcode, c⟩ ∧ t = raiseFault (some s.opcode) c s := by
  rcases h.status with same | ⟨c, hc, rfl⟩
  · rw [ht, hs] at same; cases same
  · exact ⟨c, hc, (Status.halted.inj ht).symm, rfl⟩

theorem Effect.keepsRegs (h : Effect s i t) : KeepsRegs i s t := by
  cases h with
  | regs _ hv => exact hv
  | index _ _ hv => exact hv
  | key x _ => exact (KeepsRegs.refl _ s).setV (by simp [mayWriteReg]) _
  | drw x y n p => exact (KeepsRegs.refl _ s).setV (by simp [mayWriteReg, vf]) _
  | _ => exact KeepsRegs.refl _ _

theorem Effect.i_eq (h : Effect s i t) (hi : writesI i = false) : t.i = s.i := by
  cases h with
  | index _ hw _ => rw [hw] at hi; cases hi
  | ldMemVx x _ => cases hi
  | _ => rfl

theorem Effect.stack_eq (h : Effect s i t) (hi : ∀ nnn, i ≠ .call nnn) : t.stack = s.stack := by
  cases h with
  | call nnn _ => exact absurd rfl (hi nnn)
  | _ => rfl

theorem Effect.sp_eq (h : Effect s i t) (hi : ∀ nnn, i ≠ .call nnn) (hr : i ≠ .ret) : t.sp = s.sp := by
  cases h with
  | call nnn _ => exact absurd rfl (hi nnn)
  | ret j _ => exact absurd rfl hr
  | _ => rfl

theorem Effect.dt_eq (h : Effect s i t) (hi : ∀ x, i ≠ .ldDTVx x) : t.dt = s.dt := by
  cases h with
  | ldDTVx x => exact absurd rfl (hi x)
  | _ => rfl

theorem Effect.st_eq (h : Effect s i t) (hi : ∀ x, i ≠ .ldSTVx x) : t.st = s.st := by
  cases h with
  | ldSTVx x => exact absurd rfl (hi x)
  | _ => rfl

theorem Effect.screen_eq (h : Effect s i t) (hc : i ≠ .cls) (hd : ∀ x y n, i ≠ .drw x y n) :
    t.fb = s.fb ∧ t.shouldRedraw = s.shouldRedraw := by
  cases h with
  | cls => exact absurd rfl hc
  | drw x y n _ => exact absurd rfl (hd x y n)
  | _ => exact ⟨rfl, rfl⟩

theorem Effect.redraw_kept (h : Effect s i t) (hs : s.shouldRedraw = true) : t.shouldRedraw = true := by
  cases h with
  | cls => rfl
  | drw x y n p => rfl
  | _ => exact hs

theorem Effect.mem_eq (h : Effect s i t) (hb : ∀ x, i ≠ .ldB x) (hm : ∀ x, i ≠ .ldMemVx x) : t.mem = s.mem := by
  cases h with
  | ldB x _ => exact absurd rfl (hb x)
  | ldMemVx x _ => exact absurd rfl (hm x)
  | _ => rfl

theorem Effect.keys_opcode_eq (h : Effect s i t) : t.keys = s.keys ∧ t.opcode = s.opcode := by
  cases h <;> exact ⟨rfl, rfl⟩

end

/-! ### The obligations -/

/-- Settles O39: a step that halts a running block is one of the raises. -/
theorem onlyNamedFaults : Obligations.OnlyNamedFaults := by
  intro i s t record hs h ht
  obtain ⟨c, hc, rfl, -⟩ := (effect_of_exec h).raised hs ht
  exact hc

/-- Settles O42: registers change only where the instruction names them. -/
theorem registersKeptUnlessNamed : Obligations.RegistersKeptUnlessNamed :=
  fun _ _ _ j h => (effect_of_exec h).keepsRegs j

/-- Settles O43: one lemma for each part of the state. -/
theorem onlyNamedWriters : Obligations.OnlyNamedWriters := by
  intro i s t h
  have heff := effect_of_exec h
  exact ⟨heff.i_eq, heff.stack_eq, heff.sp_eq, heff.dt_eq, heff.st_eq, heff.screen_eq, heff.redraw_kept, heff.mem_eq,
    heff.keys_opcode_eq⟩

end Sys2Proof.Proofs
end

section
/-! PROOFS. What no instruction reads (10_state R28, R30): the sound timer and the stack entries at or above `sp`. An
execute step commutes with a change of these parts. -/

namespace Sys2Proof.Proofs

open Sys2Proof.Machine Sys2Proof.Claims

/-- The state with another stack and another ST. -/
def withUnread (stack : Vector Word 16) (b : Byte) (s : State) : State := { s with stack := stack, st := b }

/-! ### The instructions that may raise, as one commit each (00_scope R10) -/

theorem exec_skp_eq (x : Reg) (s : State) :
    exec (.skp x) s = commit s ((keyDown s (s.getV x)).map (skipIf · s)) := by
  simp only [exec, execSkp]; cases keyDown s (s.getV x) <;> rfl

theorem exec_sknp_eq (x : Reg) (s : State) :
    exec (.sknp x) s = commit s ((keyDown s (s.getV x)).map (fun down => skipIf (!down) s)) := by
  simp only [exec, execSknp]; cases keyDown s (s.getV x) <;> rfl

theorem exec_drw_eq (x y : Reg) (n : Nibble) (s : State) :
    exec (.drw x y n) s = commit s ((readBytes s.mem (s.addrI 0) n.toNat).map
      (fun rows => showSprite (drawSprite s.fb (s.getV x) (s.getV y) rows) s)) := by
  simp only [exec, execDrw]; cases readBytes s.mem (s.addrI 0) n.toNat <;> rfl

theorem exec_ldB_eq (x : Reg) (s : State) :
    exec (.ldB x) s = commit s ((writeBytes s.mem (s.addrI 0) (decimalDigits (s.getV x))).map s.setMem) := by
  simp only [exec, execLdB]; cases writeBytes s.mem (s.addrI 0) (decimalDigits (s.getV x)) <;> rfl

theorem exec_ldMemVx_eq (x : Reg) (s : State) :
    exec (.ldMemVx x) s = commit s ((writeBytes s.mem (s.addrI 0) (s.regsUpTo x)).map
      (fun m => advanceI x (s.setMem m))) := by
  simp only [exec, execLdMemVx]; cases writeBytes s.mem (s.addrI 0) (s.regsUpTo x) <;> rfl

theorem exec_ldVxMem_eq (x : Reg) (s : State) :
    exec (.ldVxMem x) s = commit s ((readBytes s.mem (s.addrI 0) (x.val + 1)).map
      (fun bs => advanceI x (s.setRegs (loadRegs s.v 0 bs)))) := by
  simp only [exec, execLdVxMem]; cases readBytes s.mem (s.addrI 0) (x.val + 1) <;> rfl

/-- Where the checked operand does not depend on the unread parts and the writes commute with changing them, so does the
commit, whether it raises or not. -/
theorem commit_withUnread {α : Type} {s t : State} (k : Vector Word 16) (b : Byte) (e : Except FaultCause α)
    {f g : α → State} (hfg : ∀ a, g a = withUnread k b (f a)) (h : commit s (e.map f) = .next t) :
    commit (withUnread k b s) (e.map g) = .next (withUnread k b t) := by
  cases e with
  | error c => cases h; rfl
  | ok a => cases h; exact congrArg Host.Outcome.next (hfg a)

/-! ### Every instruction -/

/-- Every instruction but 2NNN, 00EE and FX18 commutes with a change of the unread parts. -/
theorem exec_withUnread_of_other {i : Instr} {s t : State} (k : Vector Word 16) (b : Byte) (h : exec i s = .next t)
    (hcall : ∀ nnn, i ≠ .call nnn) (hret : i ≠ .ret) (hst : ∀ x, i ≠ .ldSTVx x) :
    exec i (withUnread k b s) = .next (withUnread k b t) := by
  cases i with
  | call nnn => exact absurd rfl (hcall nnn)
  | ret => exact absurd rfl hret
  | ldSTVx x => exact absurd rfl (hst x)
  | skp x => rw [exec_skp_eq] at h ⊢; exact commit_withUnread k b _ (fun _ => rfl) h
  | sknp x => rw [exec_sknp_eq] at h ⊢; exact commit_withUnread k b _ (fun _ => rfl) h
  | drw x y n => rw [exec_drw_eq] at h ⊢; exact commit_withUnread k b _ (fun _ => rfl) h
  | ldB x => rw [exec_ldB_eq] at h ⊢; exact commit_withUnread k b _ (fun _ => rfl) h
  | ldMemVx x => rw [exec_ldMemVx_eq] at h ⊢; exact commit_withUnread k b _ (fun _ => rfl) h
  | ldVxMem x => rw [exec_ldVxMem_eq] at h ⊢; exact commit_withUnread k b _ (fun _ => rfl) h
  | ldVxK x =>
    cases hk : lowestKey s.keys with
    | some key => rw [exec_ldVxK_pressed x hk] at h; cases h; exact exec_ldVxK_pressed (s := withUnread k b s) x hk
    | none => rw [exec_ldVxK_stall x hk] at h; cases h; exact exec_ldVxK_stall (s := withUnread k b s) x hk
  | _ => cases h; rfl

/-- The execute step of `i`, which leaves `t` from `s`, leaves from `s` with stack `k` and ST `b` the same state but for
these two parts again: the entries in use agree with those of `t`, and a part that was equal before is equal after. -/
def StaysUnread (i : Instr) (s t : State) (k : Vector Word 16) (b : Byte) : Prop :=
  ∃ k' b', exec i (withUnread k b s) = .next (withUnread k' b' t) ∧
    (∀ j : Fin 16, j.val < t.sp.val → k'[j] = t.stack[j]) ∧ (k = s.stack → k' = t.stack) ∧ (b = s.st → b' = t.st)

section
variable {s t : State} {k : Vector Word 16} (b : Byte)
variable (agree : ∀ j : Fin 16, j.val < s.sp.val → k[j] = s.stack[j])
include agree

/-- A call pushes the same entry onto both stacks. -/
theorem staysUnread_call {nnn : Addr} (h : exec (.call nnn) s = .next t) : StaysUnread (.call nnn) s t k b := by
  rcases exec_call_cases nnn s with ⟨room, e⟩ | ⟨full, e⟩
  · obtain rfl := next_unique e h
    refine ⟨k.set s.sp.val s.pc room, b, exec_call_ok (s := withUnread k b s) nnn room, fun j hj => ?_,
      fun same => by rw [same]; rfl, id⟩
    have pushed : j.val < s.sp.val + 1 := hj
    simp only [State.setPc_stack, State.setStack_stack, Fin.getElem_fin, Vector.getElem_set]
    split
    · rfl
    · exact agree j (by omega)
  · obtain rfl := next_unique e h
    exact ⟨k, b, exec_call_error (s := withUnread k b s) nnn full, agree, id, id⟩

/-- A return pops an entry in use, which is the same in both stacks. -/
theorem staysUnread_ret (h : exec .ret s = .next t) : StaysUnread .ret s t k b := by
  rcases exec_ret_cases s with ⟨j, inUse, e⟩ | ⟨empty, e⟩
  · obtain rfl := next_unique e h
    have popped : exec .ret (withUnread k b s) =
        .next (((withUnread k b s).setStack k ⟨j.val, by omega⟩).setPc s.stack[j]) := by
      rw [← agree j (by omega)]; exact exec_ret_ok (s := withUnread k b s) j inUse
    refine ⟨k, b, popped, fun l hl => agree l ?_, id, id⟩
    have below : l.val < j.val := hl
    omega
  · obtain rfl := next_unique e h
    exact ⟨k, b, exec_ret_error (s := withUnread k b s) empty, agree, id, id⟩

/-- No instruction reads ST or an entry not in use. -/
theorem staysUnread {i : Instr} (h : exec i s = .next t) : StaysUnread i s t k b := by
  by_cases hcall : ∃ nnn, i = .call nnn
  · obtain ⟨nnn, rfl⟩ := hcall; exact staysUnread_call b agree h
  by_cases hret : i = .ret
  · subst hret; exact staysUnread_ret b agree h
  by_cases hst : ∃ x, i = .ldSTVx x
  · obtain ⟨x, rfl⟩ := hst
    obtain rfl := next_unique (exec_ldSTVx x s) h
    exact ⟨k, s.getV x, exec_ldSTVx x _, agree, id, fun _ => rfl⟩
  have heff := effect_of_exec h
  have stack_eq := heff.stack_eq fun nnn e => hcall ⟨nnn, e⟩
  have sp_eq := heff.sp_eq (fun nnn e => hcall ⟨nnn, e⟩) hret
  have st_eq := heff.st_eq fun x e => hst ⟨x, e⟩
  refine ⟨k, b, exec_withUnread_of_other k b h (fun nnn e => hcall ⟨nnn, e⟩) hret fun x e => hst ⟨x, e⟩, ?_,
    fun same => same.trans stack_eq.symm, fun same => same.trans st_eq.symm⟩
  rw [stack_eq, sp_eq]; exact agree

end

/-! ### The obligations -/

/-- Settles O44: only ST is changed before the step, so the stacks are equal after it. -/
theorem soundTimerIsNeverRead : Obligations.SoundTimerIsNeverRead := by
  intro i s t b h
  obtain ⟨k, b', h', -, same, -⟩ := staysUnread b (k := s.stack) (fun _ _ => rfl) h
  obtain rfl := same rfl
  exact ⟨_, h', rfl⟩

/-- Settles O45: only entries not in use are changed before the step, so ST is equal after it. -/
theorem staleSlotsAreNeverRead : Obligations.StaleSlotsAreNeverRead := by
  intro i s t k agree h
  obtain ⟨k', b, h', agree', -, same⟩ := staysUnread s.st agree h
  obtain rfl := same rfl
  exact ⟨_, h', rfl, agree'⟩

end Sys2Proof.Proofs
end

section
/-! PROOFS. The cycle (30_encoding R80, 60_exceptions): fetch, faults, the tick and the pc of a completed cycle, and the
invariant that every cycle keeps. -/

namespace Sys2Proof.Proofs

open Sys2Proof.Machine Sys2Proof.Claims

/-! ### A cycle that completes -/

/-- The last two parts of a completed cycle write `pc` and the timers: DT is ticked once. -/
theorem timerTick_pcUpdate_dt (i : Instr) (u : State) : (timerTick (pcUpdate i u)).dt.toNat = u.dt.toNat - 1 := by
  rw [timerTick_dt_toNat, pcUpdate_eq, State.setPc_dt]

theorem timerTick_pcUpdate_st (i : Instr) (u : State) : (timerTick (pcUpdate i u)).st.toNat = u.st.toNat - 1 := by
  rw [timerTick_st_toNat, pcUpdate_eq, State.setPc_st]

section
variable {s t : State} {i : Instr}

/-- An execute step of the normal class leaves `pc` to PcUpdate, 00EE excepted. -/
theorem Effect.pc_of_normal (h : Effect s i t) (hi : pcClass i = .normal) (hr : i ≠ .ret) : t.pc = s.pc := by
  cases h with
  | jump hj _ => rw [hj] at hi; cases hi
  | skip c hc => rw [hc] at hi; cases hi
  | key x _ => cases hi
  | call nnn _ => cases hi
  | ret j _ => exact absurd rfl hr
  | _ => rfl

/-- A completed execute step of the skip class is a skip. -/
theorem Effect.pc_of_skip (h : Effect s i t) (hi : pcClass i = .skip) (ht : t.status = .running) :
    t.pc = s.pc + 2 ∨ t.pc = s.pc + 4 := by
  cases h with
  | raise _ => cases ht
  | skip c _ => cases c <;> simp [skipIf]
  | regs hn _ => rw [hn] at hi; cases hi
  | jump hj _ => rw [hj] at hi; cases hi
  | index hn _ _ => rw [hn] at hi; cases hi
  | _ => cases hi

/-- A completed execute step of the wait class advances exactly when a key is pressed. -/
theorem Effect.pc_of_wait (h : Effect s i t) (hi : pcClass i = .wait) (ht : t.status = .running) :
    t.pc = if ∃ k : Fin 16, s.keys[k] = true then s.pc + 2 else s.pc := by
  cases h with
  | raise _ => cases ht
  | key x hk => rw [if_pos ⟨_, hk⟩]; rfl
  | stall x hk => rw [if_neg fun ⟨k, pressed⟩ => by rw [hk k] at pressed; cases pressed]
  | regs hn _ => rw [hn] at hi; cases hi
  | jump hj _ => rw [hj] at hi; cases hi
  | skip c hc => rw [hc] at hi; cases hi
  | index hn _ _ => rw [hn] at hi; cases hi
  | _ => cases hi

/-! ### The invariant, part by part -/

theorem Effect.mem_wf (h : Effect s i t) (hs : s.mem.wf) : t.mem.wf := by
  cases h with
  | ldB x hm => exact hm hs
  | ldMemVx x hm => exact hm hs
  | _ => exact hs

/-- The entries in use stay addresses a call was fetched from, since a call pushes its own (R100, R102). -/
theorem Effect.stackBound (h : Effect s i t) (hs : ∀ j : Fin 16, j.val < s.sp.val → s.stack[j].toNat ≤ 4094)
    (hp : s.pc.toNat ≤ 4094) : ∀ j : Fin 16, j.val < t.sp.val → t.stack[j].toNat ≤ 4094 := by
  cases h with
  | call nnn room =>
    intro j hj
    have pushed : j.val < s.sp.val + 1 := hj
    simp only [State.setPc_stack, State.setStack_stack, Fin.getElem_fin, Vector.getElem_set]
    split
    · exact hp
    · exact hs j (by omega)
  | ret j inUse =>
    intro l hl
    have below : l.val < j.val := hl
    exact hs l (by omega)
  | _ => exact hs

theorem toNat_add_le (a b : Word) : (a + b).toNat ≤ a.toNat + b.toNat := by
  rw [BitVec.toNat_add]; exact Nat.mod_le _ _

/-- PcUpdate adds at most 2 to an address. -/
theorem pcUpdate_pc_le (i : Instr) {u : State} (h : u.pc.toNat ≤ 4094) : (pcUpdate i u).pc.toNat ≤ 0x10FE := by
  by_cases hi : pcClass i = .normal
  · rw [pcUpdate_normal hi]
    exact (toNat_add_le _ _).trans ((Nat.add_le_add_right h _).trans (by decide))
  · rw [pcUpdate_other hi]; omega

/-- A skip adds at most 4 to an address. -/
theorem skipIf_pc_le (c : Bool) (h : s.pc.toNat ≤ 4094) : (skipIf c s).pc.toNat ≤ 0x10FE :=
  (toNat_add_le _ _).trans ((Nat.add_le_add_right h _).trans (by cases c <;> decide))

/-- The largest value `pc` can have after an instruction fetched at most at 4094 is BNNN's 0xFFF + 0xFF (R25). -/
theorem Effect.pcBound (h : Effect s i t) (hs : ∀ j : Fin 16, j.val < s.sp.val → s.stack[j].toNat ≤ 4094)
    (hp : s.pc.toNat ≤ 4094) : (pcUpdate i t).pc.toNat ≤ 0x10FE := by
  cases h with
  | jump hj hw => rw [pcUpdate_other (by simp [hj])]; exact hw
  | skip c hc => rw [pcUpdate_other (by simp [hc])]; exact skipIf_pc_le c hp
  | key x _ => rw [pcUpdate_other (by simp [pcClass])]; exact skipIf_pc_le false hp
  | call nnn _ =>
    have := nnn.isLt
    rw [pcUpdate_other (by simp [pcClass]), State.setPc_pc, zextAddr_toNat]; omega
  | ret j inUse => exact pcUpdate_pc_le _ (hs j (by omega))
  | _ => exact pcUpdate_pc_le _ hp

end

/-- Latching a word keeps the invariant of a running block, which has no record. -/
theorem inv_setOpcode {s : State} (h : s.Inv) (hs : s.status = .running) (w : Word) : (s.setOpcode w).Inv :=
  ⟨h.memory, h.pcBound, h.stackBound, fun record hr => by rw [State.setOpcode_status, hs] at hr; cases hr⟩

/-- Taking a fault keeps the invariant: the record is made from the state it leaves (R212, R213). -/
theorem inv_raiseFault {s : State} (h : s.Inv) {o : Option Word} (ho : o = none ∨ o = some s.opcode) (c : FaultCause) :
    (raiseFault o c s).Inv :=
  ⟨h.memory, h.pcBound, h.stackBound, fun record hr => by obtain rfl := Status.halted.inj hr; exact ⟨rfl, ho⟩⟩

/-- A completed cycle keeps the invariant. -/
theorem inv_completed {s u : State} {i : Instr} (h : s.Inv) (hp : s.pc.toNat ≤ 4094) (heff : Effect s i u)
    (hu : u.status = .running) : (timerTick (pcUpdate i u)).Inv := by
  have pcBound := heff.pcBound h.stackBound hp
  rw [pcUpdate_eq] at pcBound ⊢
  refine ⟨heff.mem_wf h.memory, pcBound, heff.stackBound h.stackBound hp, fun record hr => ?_⟩
  have running : (timerTick (u.setPc (pcUpdate i u).pc)).status = .running := hu
  rw [running] at hr; cases hr

/-- Every cycle keeps the invariant. -/
theorem inv_step {s t : State} (h : s.Inv) (hst : step s = .next t) : t.Inv := by
  obtain ⟨hs, ⟨-, rfl⟩ | ⟨w, hf, ⟨e, -, rfl⟩ | ⟨i, u, -, he, ⟨hu, rfl⟩ | ⟨record, hu, rfl⟩⟩⟩⟩ := step_cases hst
  · exact inv_raiseFault h (.inl rfl) _
  · exact inv_raiseFault (inv_setOpcode h hs w) (.inr rfl) _
  · exact inv_completed (inv_setOpcode h hs w) (fetch16_bound hf) (effect_of_exec he) hu
  · obtain ⟨c, -, -, rfl⟩ := (effect_of_exec he).raised (s := s.setOpcode w) hs hu
    exact inv_raiseFault (inv_setOpcode h hs w) (.inr rfl) c

/-! ### The obligations -/

/-- Settles O50: the four ends of a cycle each keep the invariant. -/
theorem stepKeepsInvariant : Obligations.StepKeepsInvariant := fun _ _ => inv_step

/-- Settles O30: after an execute step that left a timer alone comes one tick of it. -/
theorem everyCycleTicks : Obligations.EveryCycleTicks := by
  intro s t w i hs hf hd hst ht
  obtain ⟨u, he, -, rfl⟩ := step_completed hs hf hd hst ht
  have heff := effect_of_exec he
  refine ⟨fun hi => ?_, fun hi => ?_⟩
  · rw [timerTick_pcUpdate_dt, heff.dt_eq hi, State.setOpcode_dt]
  · rw [timerTick_pcUpdate_st, heff.st_eq hi, State.setOpcode_st]

/-- Settles O35: the two bytes at `pc` are the word fetched. -/
theorem stepRunsDecoded : Obligations.StepRunsDecoded := by
  intro s i hs hp hd t he
  have executed := step_exec hs (fetch16_ok hp) hd
  refine ⟨fun ht => ?_, fun record ht => ?_⟩
  · exact executed.trans ((congrArg (completeCycle i) he).trans (completeCycle_running ht))
  · exact executed.trans ((congrArg (completeCycle i) he).trans (completeCycle_halted ht))

/-- Settles O36: both faults come before the execute step. -/
theorem fetchAndDecodeFaults : Obligations.FetchAndDecodeFaults := by
  intro s hs
  refine ⟨fun hp => step_fetch_error hs (fetch16_error hp), fun w e hf hd => ?_⟩
  obtain rfl := decode_error hd
  exact step_decode_error hs hf hd

/-- Settles O37: the halted check comes first. -/
theorem haltedAnswersItsRecord : Obligations.HaltedAnswersItsRecord := fun _ _ => step_halted

/-- Settles O38: of the four ends of a cycle, the three that halt the block are each one raise. -/
theorem faultsArePrecise : Obligations.FaultsArePrecise := by
  intro s t record hs hst ht
  obtain ⟨-, ⟨-, rfl⟩ | ⟨w, hf, ⟨e, -, rfl⟩ | ⟨i, u, -, he, ⟨hu, rfl⟩ | ⟨_, hu, rfl⟩⟩⟩⟩ := step_cases hst
  · obtain rfl := Status.halted.inj ht
    exact ⟨rfl, rfl, .inl ⟨rfl, rfl, rfl⟩⟩
  · obtain rfl := Status.halted.inj ht
    exact ⟨rfl, rfl, .inr ⟨hf, rfl⟩⟩
  · have running : (timerTick (pcUpdate i u)).status = .running := by rw [pcUpdate_eq]; exact hu
    rw [running] at ht; cases ht
  · obtain ⟨c, -, rfl, rfl⟩ := (effect_of_exec he).raised (s := s.setOpcode w) hs ht
    exact ⟨rfl, rfl, .inr ⟨hf, rfl⟩⟩

/-- Settles O40: every execute step has an effect, and the end of the cycle answers a next state after each. -/
theorem runningBlockAlwaysSteps : Obligations.RunningBlockAlwaysSteps := by
  have total : ∀ (i : Instr) (s : State), ∃ t, exec i s = .next t := fun i s => by
    obtain ⟨t, e, -⟩ := exec_effect i s
    exact ⟨t, e⟩
  refine ⟨total, fun s hs => ?_⟩
  by_cases hp : 4094 < s.pc.toNat
  · exact ⟨_, step_fetch_error hs (fetch16_error hp)⟩
  have hf := fetch16_ok (m := s.mem) (Nat.not_lt.mp hp)
  cases hd : decode (wordOfBytes (s.mem.read s.pc.toNat) (s.mem.read (s.pc.toNat + 1))) with
  | error e => exact ⟨_, step_decode_error hs hf hd⟩
  | ok i =>
    obtain ⟨u, he⟩ := total i (s.setOpcode (wordOfBytes (s.mem.read s.pc.toNat) (s.mem.read (s.pc.toNat + 1))))
    rw [step_exec hs hf hd, he]
    cases hu : u.status with
    | running => exact ⟨_, completeCycle_running hu⟩
    | halted record => exact ⟨_, completeCycle_halted hu⟩

/-- Settles O41: PcUpdate adds 2 in the normal class; the other two classes have set `pc` in their execute step. -/
theorem pcAfterCycle : Obligations.PcAfterCycle := by
  intro s t w i hs hf hd hst ht
  obtain ⟨u, he, hu, rfl⟩ := step_completed hs hf hd hst ht
  have heff := effect_of_exec he
  refine ⟨fun hi hr => ?_, fun hi => ?_, fun hi => ?_⟩
  · rw [pcUpdate_normal hi]
    exact congrArg (· + 2) (heff.pc_of_normal hi hr)
  · rw [pcUpdate_other (by simp [hi])]
    exact heff.pc_of_skip hi hu
  · rw [pcUpdate_other (by simp [hi])]
    exact heff.pc_of_wait hi hu

/-- Settles O46: the two bytes stored are the two bytes fetched, put together again. -/
theorem storedWordIsFetched : Obligations.StoredWordIsFetched := by
  intro s w hp
  have stored : s.withFetchWord 16 w = s.setMem ((s.mem.write s.pc.toNat (hiByte (trunc16 (w % 2 ^ 16)))).write
      (s.pc.toNat + 1) (loByte (trunc16 (w % 2 ^ 16)))) := by
    rw [State.withFetchWord, storeWordAtPc, if_neg (Nat.not_lt.mpr hp)]
  have word : trunc16 (w % 2 ^ 16) = BitVec.ofNat 16 w := BitVec.eq_of_toNat_eq (by simp)
  rw [stored]
  refine ⟨?_, fun a h1 h2 => ?_⟩
  · rw [State.setMem_mem, State.setMem_pc, fetch16_ok hp, Memory.read_write_same,
      Memory.read_write_ne _ _ (Nat.ne_of_lt (Nat.lt_succ_self _)), Memory.read_write_same, wordOfBytes_hi_lo, word]
  · rw [State.setMem_mem, Memory.read_write_ne _ _ h2, Memory.read_write_ne _ _ h1]

end Sys2Proof.Proofs
end

section
/-! PROOFS. Reset, load and the host (70_reset, 60_exceptions R223): what each event does, and the invariant along every
sequence of events. -/

namespace Sys2Proof.Proofs

open Sys2Proof.Machine Sys2Proof.Claims

/-! ### The state after reset (10_state R39) -/

/-- A byte that nothing has written reads as its reset contents. -/
theorem reset_read (a : Nat) : State.reset.mem.read a = Config.font.getD a 0 := rfl

theorem font_length : Config.font.length = 80 := rfl

theorem inv_reset : State.reset.Inv where
  memory := ⟨List.Pairwise.nil, fun c hc => by cases hc⟩
  pcBound := by decide
  stackBound := fun j hj => by cases hj
  recordAgrees := fun record hr => by cases hr

/-! ### Each event keeps the invariant -/

/-- A load writes memory in its canonical form, or raises with no word. -/
theorem inv_load {s : State} (h : s.Inv) (bytes : List Byte) : (load bytes s).Inv := by
  by_cases hl : bytes.length ≤ 3584
  · have wf := load_wf bytes h.memory
    rw [load_ok s hl] at wf ⊢
    exact ⟨wf, h.pcBound, h.stackBound, h.recordAgrees⟩
  · rw [load_error s (Nat.not_le.mp hl)]
    exact inv_raiseFault h (.inl rfl) _

/-- Every host event keeps the invariant: the keys, the redraw flag and the count of draws are no part of it. -/
theorem inv_hostStep {e : HostEvent} {x y : Session} (h : x.machine.Inv) (hxy : hostStep e x = .next y) :
    y.machine.Inv := by
  obtain ⟨-, rfl⟩ | ⟨bytes, -, -, -, rfl⟩ | ⟨-, t, ht, rfl⟩ | ⟨keys, -, rfl⟩ | ⟨-, rfl⟩ := hostStep_cases hxy
  · exact ⟨inv_reset.memory, inv_reset.pcBound, inv_reset.stackBound, inv_reset.recordAgrees⟩
  · exact inv_load h bytes
  · exact inv_step h ht
  · exact ⟨h.memory, h.pcBound, h.stackBound, h.recordAgrees⟩
  · exact ⟨h.memory, h.pcBound, h.stackBound, h.recordAgrees⟩

/-! ### The obligations -/

/-- Settles O47: the values reset writes down. -/
theorem resetValues : Obligations.ResetValues :=
  ⟨rfl, rfl, rfl, rfl, fun j => Vector.getElem_replicate j.isLt, fun j => Vector.getElem_replicate j.isLt⟩

/-- Settles O48: nothing is listed in memory, so the font table answers below 80 and 0 above. -/
theorem resetChosenValues : Obligations.ResetChosenValues := by
  refine ⟨rfl, rfl, rfl, rfl, clearFb_cell, fun k => Vector.getElem_replicate k.isLt, fun a ha => ?_, fun a ha => ?_⟩
  · have inFont : a < Config.font.length := by rw [font_length]; exact ha
    rw [reset_read, List.getD_eq_getElem _ _ inFont, List.getElem?_eq_getElem inFont]
  · have outside : Config.font.length ≤ a := by rw [font_length]; exact ha
    rw [reset_read, List.getD_eq_default _ _ outside]

/-- Settles O49: memory lists nothing, the stack is empty and there is no record. -/
theorem resetMeetsInvariant : Obligations.ResetMeetsInvariant := inv_reset

/-- Settles O51: induction over the events, from the reset state. -/
theorem reachableMeetsInvariant : Obligations.ReachableMeetsInvariant := by
  intro x hx
  induction hx with
  | start => exact inv_reset
  | event e x y _ hxy ih => exact inv_hostStep ih hxy

/-- Settles O52: a program that fits is copied byte by byte and stays inside memory, a longer one raises. -/
theorem loadCopiesProgram : Obligations.LoadCopiesProgram := by
  intro s bytes
  refine ⟨fun hl => ?_, fun hl => load_error s hl⟩
  have wf : s.mem.wf → (load bytes s).mem.wf := load_wf bytes
  rw [load_ok s hl] at wf ⊢
  obtain ⟨hin, hout⟩ := copyBytes_spec s.mem 0x200 bytes
  exact ⟨hin, hout, wf, rfl⟩

/-- Settles O53: each event's own branch of the host step. -/
theorem hostEventsBetweenCycles : Obligations.HostEventsBetweenCycles := by
  intro x
  refine ⟨rfl, fun keys => rfl, rfl, fun t ht => ?_, fun hc bytes => ?_, fun hc hs bytes => ?_⟩
  · simp only [hostStep, ht]
  · simp only [hostStep, hc]
  · simp only [hostStep, hc, hs]

/-- Settles O54: a reset restores the invariant, a load or a cycle keeps it, the other two events do not touch it. -/
theorem hostEventKeepsInvariant : Obligations.HostEventKeepsInvariant := fun _ _ _ => inv_hostStep

end Sys2Proof.Proofs
end
